-- ==== Sys2Proof/Word.lean ====
section
/-! DEFINITION. The word and byte types of the engine (R7) and the lane index (R11). Every word is unsigned;
`+` on `Word` is the spec's `+32` (R9), and `&&&`, `|||`, `^^^`, `~~~` are AND, OR, XOR, NOT (R10). -/

namespace Sys2Proof

/-- A byte: 8 bits, bit 0 the least significant (R7). -/
abbrev Byte := BitVec 8

/-- A word: 32 bits, always unsigned (R7). -/
abbrev Word := BitVec 32

/-- A nibble: 4 bits (R7). -/
abbrev Nibble := BitVec 4

/-- A lane: one of the eight independent message slots of a batch (R11; parameter `NL` of R6). -/
abbrev Lane := Fin 8

end Sys2Proof
end

