-- ==== Sys2Proof/Syntax.lean ====
section
/-! DEFINITION. Instructions (one constructor per row of the opcode table), the registers of the window (R51), host
accesses and the other event of the outside world (R18, R54, R88, R220). -/

namespace Sys2Proof

/-- Which of the four state words of a lane: `w` = 0, 1, 2, 3 for A, B, C, D (R24). -/
inductive WordSel where
  | a
  | b
  | c
  | d
  deriving DecidableEq, Repr

/-- The direction of a host access (R54). -/
inductive Dir where
  | read
  | write
  deriving DecidableEq, Repr

/-- The entries of the register map (R51), each one 32-bit word. -/
inductive Reg where
  /-- word `i` of lane `j`'s block, at `64·j + 4·i` -/
  | blkw (j : Lane) (i : Fin 16)
  /-- message length of lane `j`, at `0x200 + 4·j` -/
  | len (j : Lane)
  /-- raw state word, at `0x280 + 16·j + 4·w` -/
  | v (j : Lane) (w : WordSel)
  /-- presented word, at `0x300 + 16·j + 4·w` -/
  | p (j : Lane) (w : WordSel)
  /-- command port, at `0x380` -/
  | cmd
  /-- status register, at `0x384` -/
  | status
  deriving DecidableEq, Repr

/-- The instructions: one constructor per row of `spec/opcode_table.json`. The first three are the command words of
format CMD32 (R82 to R85); the others are the host accesses of format REGOFF12 (R51, R55 to R62). -/
inductive Instr where
  | buildBlocks
  | compress
  | expandHex
  | rdBlkw (j : Lane) (i : Fin 16)
  | wrBlkw (j : Lane) (i : Fin 16) (value : Word)
  | rdLen (j : Lane)
  | wrLen (j : Lane) (value : Word)
  | rdV (j : Lane) (w : WordSel)
  | wrV (j : Lane) (w : WordSel) (value : Word)
  | rdP (j : Lane) (w : WordSel)
  | wrCmd (value : Word)
  | rdStatus
  | wrStatus (value : Word)
  deriving DecidableEq, Repr

/-- The operations a command word selects (R82). -/
inductive Command where
  | buildBlocks
  | compress
  | expandHex
  deriving DecidableEq, Repr

/-- One host access to the window: direction, width in bits, 12-bit byte offset, data (R50, R54, R88). The data of a
read mean nothing. Accesses of every width and at every offset can be stated; `decode` says which have a meaning. -/
structure Access where
  dir   : Dir
  width : Nat
  off   : BitVec 12
  data  : Word
  deriving DecidableEq, Repr

/-- The two formats an instruction is encoded in: a command word (R80) or a host access (R51, R88). -/
inductive Encoding where
  | command (word : Word)
  | access (a : Access)
  deriving DecidableEq, Repr

/-- What the outside world does to one instance: an access (R18, R54) or the platform's reset (R220). -/
inductive HostAction where
  | access (a : Access)
  | reset
  deriving DecidableEq, Repr

/-- A host script: actions in the order issued (R65, R88, R234). -/
abbrev Script := List HostAction

/-- Why an encoding has no meaning. -/
inductive DecodeError where
  /-- an access of a width other than 32 bits (R54, R63) -/
  | badWidth
  /-- an access whose offset is no multiple of 4 (R54, R63) -/
  | misaligned
  /-- an offset in 0x220..0x27F or 0x388..0xFFF (R63) -/
  | reservedOffset
  /-- a write to the presented view (R59, R63) -/
  | readOnlyView
  /-- a read of `CMD` (R60, R63) -/
  | writeOnlyPort
  /-- a command word other than 1, 2, 3 (R86) -/
  | reservedCommand
  deriving DecidableEq, Repr

end Sys2Proof
end

