-- ==== Sys2Proof/Decode.lean ====
section
/-! DEFINITION. Decoding, total on every encoding and rejecting by name: command words (R82, R86) and host accesses by
the register map (R51, R63). Then the encoder, the opcode table's rows, and the table's own bit numbering. -/

namespace Sys2Proof

/-- `w` from its two bits (R24, R51). -/
def wordSelOfBits (w : BitVec 2) : WordSel :=
  if w = 0 then .a else if w = 1 then .b else if w = 2 then .c else .d

/-- `w` as a number: 0, 1, 2, 3 for A, B, C, D (R24). -/
def wordSelIndex : WordSel → Nat
  | .a => 0
  | .b => 1
  | .c => 2
  | .d => 3

/-- The register at a byte offset (R51, R63). -/
def regAt (off : BitVec 12) : Except DecodeError Reg :=
  if off.extractLsb' 0 2 ≠ 0 then .error .misaligned
  else if off.extractLsb' 9 3 = 0 then
    .ok (.blkw (off.extractLsb' 6 3).toFin (off.extractLsb' 2 4).toFin)
  else if off.extractLsb' 5 7 = 0x10 then .ok (.len (off.extractLsb' 2 3).toFin)
  else if off.extractLsb' 7 5 = 0x5 then
    .ok (.v (off.extractLsb' 4 3).toFin (wordSelOfBits (off.extractLsb' 2 2)))
  else if off.extractLsb' 7 5 = 0x6 then
    .ok (.p (off.extractLsb' 4 3).toFin (wordSelOfBits (off.extractLsb' 2 2)))
  else if off = 0x380 then .ok .cmd
  else if off = 0x384 then .ok .status
  else .error .reservedOffset

/-- Reads by register (R51; R55, R57 to R59, R61). `CMD` cannot be read (R60). -/
def decodeRead : Reg → Except DecodeError Instr
  | .blkw j i => .ok (.rdBlkw j i)
  | .len j => .ok (.rdLen j)
  | .v j w => .ok (.rdV j w)
  | .p j w => .ok (.rdP j w)
  | .cmd => .error .writeOnlyPort
  | .status => .ok .rdStatus

/-- Writes by register (R51; R56 to R58, R60, R62). The presented view cannot be written (R59). -/
def decodeWrite (value : Word) : Reg → Except DecodeError Instr
  | .blkw j i => .ok (.wrBlkw j i value)
  | .len j => .ok (.wrLen j value)
  | .v j w => .ok (.wrV j w value)
  | .p _ _ => .error .readOnlyView
  | .cmd => .ok (.wrCmd value)
  | .status => .ok (.wrStatus value)

/-- A host access (R54, R63). -/
def decodeAccess (a : Access) : Except DecodeError Instr :=
  if a.width ≠ 32 then .error .badWidth
  else
    match regAt a.off with
    | .error e => .error e
    | .ok r =>
      match a.dir with
      | .read => decodeRead r
      | .write => decodeWrite a.data r

/-- A command word (R82): bits 31:8 must be zero, bits 7:0 select the operation; the rest is reserved (R86). -/
def decodeCommand (v : Word) : Except DecodeError Command :=
  if v.extractLsb' 8 24 ≠ 0 then .error .reservedCommand
  else if v.extractLsb' 0 8 = 0x01 then .ok .buildBlocks
  else if v.extractLsb' 0 8 = 0x02 then .ok .compress
  else if v.extractLsb' 0 8 = 0x03 then .ok .expandHex
  else .error .reservedCommand

/-- The instruction of an operation (R83 to R85). -/
def commandInstr : Command → Instr
  | .buildBlocks => .buildBlocks
  | .compress => .compress
  | .expandHex => .expandHex

/-- The decoder (R51, R82). -/
def decode : Encoding → Except DecodeError Instr
  | .command v =>
    match decodeCommand v with
    | .ok c => .ok (commandInstr c)
    | .error e => .error e
  | .access a => decodeAccess a

/-! ### The encoder -/

/-- The byte offset of a register (R51). -/
def regOffset : Reg → BitVec 12
  | .blkw j i => BitVec.ofNat 12 (64 * j.val + 4 * i.val)
  | .len j => BitVec.ofNat 12 (0x200 + 4 * j.val)
  | .v j w => BitVec.ofNat 12 (0x280 + 16 * j.val + 4 * wordSelIndex w)
  | .p j w => BitVec.ofNat 12 (0x300 + 16 * j.val + 4 * wordSelIndex w)
  | .cmd => 0x380
  | .status => 0x384

/-- `RegRead(off)` (R54). -/
def readAccess (r : Reg) : Access := ⟨.read, 32, regOffset r, 0⟩

/-- `RegWrite(off, v)` (R54). -/
def writeAccess (r : Reg) (value : Word) : Access := ⟨.write, 32, regOffset r, value⟩

/-- The encoding of an instruction (R51, R83 to R85). -/
def encode : Instr → Encoding
  | .buildBlocks => .command 0x00000001
  | .compress => .command 0x00000002
  | .expandHex => .command 0x00000003
  | .rdBlkw j i => .access (readAccess (.blkw j i))
  | .wrBlkw j i value => .access (writeAccess (.blkw j i) value)
  | .rdLen j => .access (readAccess (.len j))
  | .wrLen j value => .access (writeAccess (.len j) value)
  | .rdV j w => .access (readAccess (.v j w))
  | .wrV j w value => .access (writeAccess (.v j w) value)
  | .rdP j w => .access (readAccess (.p j w))
  | .wrCmd value => .access (writeAccess .cmd value)
  | .rdStatus => .access (readAccess .status)
  | .wrStatus value => .access (writeAccess .status value)

/-- How an encoding reaches the engine: a command word is written to `CMD` (R28, R88). -/
def portAccess : Encoding → Access
  | .command v => writeAccess .cmd v
  | .access a => a

/-! ### The opcode table -/

/-- A row of the opcode table: the direction of the access (none for a command word), and which bits are fixed. A word
belongs to the row when its bits under the mask are the pattern. -/
structure OpcodeRow where
  dir     : Option Dir
  pattern : Word
  mask    : Word
  deriving DecidableEq, Repr

/-- The row of an instruction in `spec/opcode_table.json` (R51, R83 to R85). -/
def opcodeRow : Instr → OpcodeRow
  | .buildBlocks => ⟨none, 0x00000001, 0xFFFFFFFF⟩
  | .compress => ⟨none, 0x00000002, 0xFFFFFFFF⟩
  | .expandHex => ⟨none, 0x00000003, 0xFFFFFFFF⟩
  | .rdBlkw _ _ => ⟨some .read, 0x000, 0xE03⟩
  | .wrBlkw _ _ _ => ⟨some .write, 0x000, 0xE03⟩
  | .rdLen _ => ⟨some .read, 0x200, 0xFE3⟩
  | .wrLen _ _ => ⟨some .write, 0x200, 0xFE3⟩
  | .rdV _ _ => ⟨some .read, 0x280, 0xF83⟩
  | .wrV _ _ _ => ⟨some .write, 0x280, 0xF83⟩
  | .rdP _ _ => ⟨some .read, 0x300, 0xF83⟩
  | .wrCmd _ => ⟨some .write, 0x380, 0xFFF⟩
  | .rdStatus => ⟨some .read, 0x384, 0xFFF⟩
  | .wrStatus _ => ⟨some .write, 0x384, 0xFFF⟩

/-- The thirteen rows, in the table's order. -/
def opcodeTable : List OpcodeRow :=
  [opcodeRow .buildBlocks, opcodeRow .compress, opcodeRow .expandHex,
   opcodeRow (.rdBlkw 0 0), opcodeRow (.wrBlkw 0 0 0), opcodeRow (.rdLen 0), opcodeRow (.wrLen 0 0),
   opcodeRow (.rdV 0 .a), opcodeRow (.wrV 0 .a 0), opcodeRow (.rdP 0 .a),
   opcodeRow (.wrCmd 0), opcodeRow .rdStatus, opcodeRow (.wrStatus 0)]

/-- An encoding belongs to a row of the table: a command word by its 32 bits, a 32-bit access by its direction and its
12-bit offset (R51, R80). -/
def rowMatches (row : OpcodeRow) : Encoding → Bool
  | .command v => row.dir == none && v &&& row.mask == row.pattern
  | .access a =>
    row.dir == some a.dir && a.width == 32 && a.off.setWidth 32 &&& row.mask == row.pattern

/-! ### The table's own bit numbering -/

/-- The direction of a table word of format REGOFF12. The table gives the direction no bit; this model's convention
(DESIGN CHOICE, log entry 10): bit 12 set is a write; bit 12 clear is a read where the offset can be read, else a write. -/
def tableDir (w : Nat) : Dir :=
  if w.testBit 12 then .write
  else
    match decodeAccess ⟨.read, 32, BitVec.ofNat 12 w, 0⟩ with
    | .ok _ => .read
    | .error _ => .write

/-- An instruction from its bits, numbered as the table numbers them: 32 bits are a command word (R80); otherwise bits
11:0 are the offset of an access, the direction is as `tableDir` says, and the data start at bit 16. -/
def tableEncoding (nbits w : Nat) : Encoding :=
  if nbits = 32 then .command (BitVec.ofNat 32 w)
  else .access ⟨tableDir w, 32, BitVec.ofNat 12 w, BitVec.ofNat 32 (w / 2 ^ 16)⟩

/-- The instruction that the decoder reads from the bits of a row of the opcode table. -/
def decodeTableWord (nbits w : Nat) : Option Instr :=
  (decode (tableEncoding nbits w)).toOption

end Sys2Proof
end

