-- ==== Sys2Proof/Machine/Bits.lean ====
section
/-! DEFINITION. Byte order, rotation and byte swap (R8, R12, R13), written as the spec's formulas. -/

namespace Sys2Proof.Machine

/-- `le32(b0, b1, b2, b3)`: the byte with the lowest index is the low-order byte (R8). -/
def le32 (b0 b1 b2 b3 : Byte) : Word :=
  BitVec.ofNat 32 (b0.toNat + 2 ^ 8 * b1.toNat + 2 ^ 16 * b2.toNat + 2 ^ 24 * b3.toNat)

/-- `byte_k(v) = v[8k+7:8k]` (R8). -/
def byteOf (v : Word) (k : Nat) : Byte := v.extractLsb' (8 * k) 8

/-- `le64_bytes(n)[k]`, for `k` = 0..7 (R8). -/
def le64Byte (n k : Nat) : Byte := BitVec.ofNat 8 (n / 2 ^ (8 * k))

/-- `rotl32(x, n)` for `1 ≤ n ≤ 31`, the formula of R12. The engine never uses another amount (DESIGN
CHOICE, log entry 8). -/
def rotl32 (x : Word) (n : Nat) : Word :=
  BitVec.ofNat 32 (x.toNat * 2 ^ n % 2 ^ 32 + x.toNat / 2 ^ (32 - n))

/-- `bswap32(x)`: the four bytes in reverse order (R13). -/
def bswap32 (x : Word) : Word := le32 (byteOf x 3) (byteOf x 2) (byteOf x 1) (byteOf x 0)

/-- The high nibble `x[7:4]` of a byte (R7). -/
def highNibble (x : Byte) : Nibble := x.extractLsb' 4 4

/-- The low nibble `x[3:0]` of a byte (R7). -/
def lowNibble (x : Byte) : Nibble := x.extractLsb' 0 4

end Sys2Proof.Machine
end

