-- ==== Sys2Proof/Config.lean ====
section
/-! DEFINITION. The parameters of R6 that a rule uses, the parameters R6 leaves open (no value, read by no rule), and
the free values: constants without a body, so that nothing can be proved of what they are. The open parameters are log
entry 14. -/

namespace Sys2Proof

/-- The internal vector widths R6 and R138 allow. -/
inductive SimdWidth where
  | four
  | eight
  | sixteen
  deriving DecidableEq, Repr, Inhabited

namespace Config

/-- `LMAX`, the greatest message length in bytes that `build_blocks` accepts (R6, R102). -/
abbrev LMAX : Nat := 55

/-- `NR`, rounds per compression (R6). -/
abbrev NR : Nat := 64

/-- `W`, the internal vector width: open and not observable (R6, R138; U4). No rule reads it. -/
opaque W : SimdWidth

/-- `BASE`, where the platform places the register window: open, every rule works with the offset (R6, R50). -/
opaque BASE : Nat

/-- `T_BUILD`, the latency of `build_blocks`: open, no rule depends on it (R6, R233; U5). -/
opaque T_BUILD : Nat

/-- `T_COMPRESS`, the latency of `compress`: open, no rule depends on it (R6, R233; U5). -/
opaque T_COMPRESS : Nat

/-- `T_EXPAND`, the latency of `expand_hex`: open, no rule depends on it (R6, R233; U5). -/
opaque T_EXPAND : Nat

/-- Free value (DESIGN CHOICE, log entry 1): the byte that draw `n` puts at block address `64·j + k` (R36, U1). -/
opaque resetByte : (n addr : Nat) → Byte

/-- Free value (DESIGN CHOICE, log entry 1): the word that draw `n` puts in `LEN[j]` (R36, U1). -/
opaque resetLen : (n j : Nat) → Word

/-- Free value (DESIGN CHOICE, log entry 1): the word that draw `n` puts in `V[j][w]`, `w` = 0..3 for A..D (R36, U1). -/
opaque resetWord : (n j w : Nat) → Word

/-- Free value (DESIGN CHOICE, log entry 7): the unspecified value that the reserved read of draw `n` returns (R63). -/
opaque reservedRead : (n : Nat) → Word

end Config

end Sys2Proof
end

