-- ==== Sys2Proof/Machine/State.lean ====
section
/-! DEFINITION. The state of one engine instance (R20) and what stands around it at the host port, as plain data; the
reasons a step can stop; the state after reset (R36, R220). -/

namespace Sys2Proof.Machine

/-- A message block: a 64-byte buffer (R21; parameter `BS` of R6). Held as a vector (DESIGN CHOICE, log entry 5). -/
abbrev Block := Vector Byte 64

/-- The four state words A, B, C, D of one lane, `V[j]` of R24. -/
structure Quad where
  a : Word
  b : Word
  c : Word
  d : Word
  deriving DecidableEq, Repr

/-- The engine's state: exactly the elements of R20. -/
structure Engine where
  /-- `BLK[j][k]` (R21) -/
  blk : Vector Block 8
  /-- `LEN[j]` (R23) -/
  len : Vector Word 8
  /-- `VA[j]` (R24) -/
  va  : Vector Word 8
  /-- `VB[j]` (R24) -/
  vb  : Vector Word 8
  /-- `VC[j]` (R24) -/
  vc  : Vector Word 8
  /-- `VD[j]` (R24) -/
  vd  : Vector Word 8
  /-- `STATUS.ERR` (R27) -/
  err : Bool
  deriving DecidableEq, Repr

/-- One instance and its host port. The last three fields are the model's own (DESIGN CHOICE, log
entries 2, 3, 4). -/
structure State where
  /-- the engine (R20) -/
  eng     : Engine
  /-- the host's actions that have been issued and not yet performed, oldest first (R65, R234) -/
  pending : Script
  /-- the values that reads have returned to the host, newest first (R55 to R61) -/
  reads   : List Word
  /-- how many events that draw free values have happened -/
  draws   : Nat
  deriving DecidableEq, Repr

/-- Nothing stops the engine with a fault: InputTooLong is recoverable and leaves a next state (R192, R197), and every
access and command completes (R233, R234; DEDUCED, log entry 12). So no one raises a fault. -/
inductive Fault where
  deriving DecidableEq, Repr

/-- The reasons for giving an action no meaning. -/
inductive Refusal where
  /-- An instruction without a meaning. Raised by no arm of `exec`: all are modelled. Safe. -/
  | notModelled (mnemonic : String)
  /-- A reserved access, and why it is one (R63). Raised by `Safety.strictStep` only. Safe: the machine itself goes on. -/
  | reservedAccess (why : DecodeError)
  /-- A reserved command word (R86). Raised by `Safety.strictStep` only. Safe: the machine itself goes on. -/
  | reservedCommand (word : Word)
  deriving DecidableEq, Repr

/-- The engine after the reset that makes draw `n`: `STATUS.ERR` is 0, everything else is unspecified (R36, R220), that
is, a free value (DESIGN CHOICE, log entry 1). The spec does not say whether the unspecified contents of two instances (R18,
R205) are related. Here they are: a free value depends on the draw's number and the element's place, not on the instance,
so two instances that reset at the same draw hold the same (DESIGN CHOICE, log entry 1; unsafe for a claim that compares
them). -/
def Engine.afterReset (n : Nat) : Engine where
  blk := Vector.ofFn fun j : Lane => Vector.ofFn fun k : Fin 64 => Config.resetByte n (64 * j.val + k.val)
  len := Vector.ofFn fun j : Lane => Config.resetLen n j.val
  va := Vector.ofFn fun j : Lane => Config.resetWord n j.val 0
  vb := Vector.ofFn fun j : Lane => Config.resetWord n j.val 1
  vc := Vector.ofFn fun j : Lane => Config.resetWord n j.val 2
  vd := Vector.ofFn fun j : Lane => Config.resetWord n j.val 3
  err := false

/-- The machine right after power-on reset: the engine idle, nothing issued, nothing returned (R36, R220). -/
def State.reset : State where
  eng := Engine.afterReset 0
  pending := []
  reads := []
  draws := 1

end Sys2Proof.Machine
end

