-- ==== Sys2Proof/Machine/Ops.lean ====
section
/-! DEFINITION. The named operations over the engine's state: the word view of a block, the reads and writes of every
element, the one exception and its return, reset, reserved accesses, and what the port returns. -/

namespace Sys2Proof.Machine

/-- `m[i]` of a block, the word view of R22. -/
def blockWord (b : Block) (i : Fin 16) : Word :=
  le32 b[4 * i.val] b[4 * i.val + 1] b[4 * i.val + 2] b[4 * i.val + 3]

/-- `BLKW[i] <- v` in one block: its four bytes are the bytes of `v` (R22). -/
def setBlockWord (b : Block) (i : Fin 16) (v : Word) : Block :=
  Vector.ofFn fun k : Fin 64 => if k.val / 4 = i.val then byteOf v (k.val % 4) else b[k]

/-- Word `w` of a lane's four (R24). -/
def quadWord (q : Quad) : WordSel → Word
  | .a => q.a
  | .b => q.b
  | .c => q.c
  | .d => q.d

/-- `BLK[j]` (R21). -/
def Engine.block (e : Engine) (j : Lane) : Block := e.blk[j]

/-- `V[j] = (VA[j], VB[j], VC[j], VD[j])` (R24). -/
def Engine.quad (e : Engine) (j : Lane) : Quad := ⟨e.va[j], e.vb[j], e.vc[j], e.vd[j]⟩

/-- `BLKW[j][i] <- v` (R22, R56). -/
def Engine.setBlkw (e : Engine) (j : Lane) (i : Fin 16) (v : Word) : Engine :=
  { e with blk := e.blk.set j (setBlockWord (e.block j) i v) }

/-- `LEN[j] <- v` (R57). -/
def Engine.setLen (e : Engine) (j : Lane) (v : Word) : Engine :=
  { e with len := e.len.set j v }

/-- `V[j][w] <- v` (R58). -/
def Engine.setWord (e : Engine) (j : Lane) (w : WordSel) (v : Word) : Engine :=
  match w with
  | .a => { e with va := e.va.set j v }
  | .b => { e with vb := e.vb.set j v }
  | .c => { e with vc := e.vc.set j v }
  | .d => { e with vd := e.vd.set j v }

/-- `BLK[j] <- f j` for every lane. -/
def Engine.setBlocks (e : Engine) (f : Lane → Block) : Engine :=
  { e with blk := Vector.ofFn f }

/-- `V[j] <- f j` for every lane. -/
def Engine.setQuads (e : Engine) (f : Lane → Quad) : Engine :=
  { e with
    va := Vector.ofFn fun j => (f j).a
    vb := Vector.ofFn fun j => (f j).b
    vc := Vector.ofFn fun j => (f j).c
    vd := Vector.ofFn fun j => (f j).d }

/-- Raising InputTooLong: `STATUS.ERR <- 1` and nothing else; no handler, no saved state (R190, R197). -/
def Engine.raiseInputTooLong (e : Engine) : Engine := { e with err := true }

/-- The return from it: the host's acknowledgement clears `ERR` and restores nothing, since nothing else changed (R198). -/
def Engine.acknowledgeError (e : Engine) : Engine := { e with err := false }

/-- An operation of the engine, seen from the port: the engine's state changes, nothing is returned. -/
def State.onEngine (s : State) (f : Engine → Engine) : State := { s with eng := f s.eng }

/-- The port returns `v` to the host; a read changes no state of the engine (R55, R64). -/
def State.deliver (s : State) (v : Word) : State := { s with reads := v :: s.reads }

/-- Reset: `ERR` is 0, all else of the engine is drawn anew (R36, R220). The host's record and its further actions are not
the engine's (DESIGN CHOICE, log entry 13). -/
def State.takeReset (s : State) : State :=
  { s with eng := Engine.afterReset s.draws, draws := s.draws + 1 }

/-- A reserved access (R63): a write changes no state; a read changes no state and returns an unspecified value, a free
value (DESIGN CHOICE, log entries 6 and 7). The spec does not say whether such values of two instances (R18, R205) are
related. Here they are: the value depends on the draw's number, not on the instance, so two instances at the same draw
read the same (DESIGN CHOICE, log entry 7; unsafe for a claim that compares them). -/
def State.reservedAccess (s : State) : Dir → State
  | .read => { s with reads := Config.reservedRead s.draws :: s.reads, draws := s.draws + 1 }
  | .write => s

end Sys2Proof.Machine
end

