-- ==== Sys2Proof/Machine/Operands.lean ====
section
/-! DEFINITION. The implicit operands of the three commands (R81): the lengths and messages that `build_blocks` reads
(R103, R106), the message schedule that `compress` reads (R122), and the register operands of the window (R51). -/

namespace Sys2Proof.Machine

/-- The length `L` of lane `j`: the unsigned value of `LEN[j]` (R23, R102). -/
def Engine.length (e : Engine) (j : Lane) : Nat := e.len[j].toNat

/-- `BLKW[j][i]` (R22). -/
def Engine.blkw (e : Engine) (j : Lane) (i : Fin 16) : Word := blockWord (e.block j) i

/-- `V[j][w]`, the raw word (R24). -/
def Engine.word (e : Engine) (j : Lane) (w : WordSel) : Word := quadWord (e.quad j) w

/-- The first `L` bytes of a block: the message that stands in it (R21, R106). -/
def blockMessage (b : Block) (L : Nat) : List Byte := b.toList.take L

/-- The message of lane `j`: bytes `[0..LEN[j])` of `BLK[j]` (R103, R106). -/
def Engine.message (e : Engine) (j : Lane) : List Byte := blockMessage (e.block j) (e.length j)

/-- The sixteen message words of a block, used as they are (R122). -/
def schedule (b : Block) : Vector Word 16 := Vector.ofFn (blockWord b)

end Sys2Proof.Machine
end

