-- ==== Sys2Proof/Machine/Builder.lean ====
section
/-! DEFINITION. The Block Builder: the per-lane function `build_block` (R101), the padding in place (R103, R106), and the
meaning of `build_blocks`. -/

namespace Sys2Proof.Machine

/-- The byte that padding puts at index `k ≥ L` of the block of an `L`-byte message (R101): 0x80 at `L`, zeros up to
index 55, then the bit length `8·L` in eight little-endian bytes. -/
def padByte (L k : Nat) : Byte :=
  if k = L then 0x80 else if k < 56 then 0x00 else le64Byte (8 * L) (k - 56)

/-- `build_block(msg)` (R101): no value when the message has 56 bytes or more. -/
def buildBlock (msg : List Byte) : Option Block :=
  if msg.length ≤ Config.LMAX then
    some (Vector.ofFn fun k : Fin 64 => if k.val < msg.length then msg.getD k.val 0 else padByte msg.length k.val)
  else none

/-- Padding in place: the bytes below `L` stay, every byte from `L` to 63 is overwritten (R106). -/
def padInPlace (b : Block) (L : Nat) : Block :=
  Vector.ofFn fun k : Fin 64 => if k.val < L then b[k] else padByte L k.val

/-- Some lane's length is 56 or more (R102, R190). -/
def Engine.someTooLong (e : Engine) : Bool :=
  (List.finRange 8).any fun j => decide (Config.LMAX < e.length j)

/-- The Block Builder over the batch (R103): all lengths are checked first; on failure no byte of `BLK` changes (R107). -/
def Engine.buildAll (e : Engine) : Engine :=
  if e.someTooLong then e.raiseInputTooLong
  else e.setBlocks fun j => padInPlace (e.block j) (e.length j)

/-- `build_blocks` (R103). -/
def execBuildBlocks (s : State) : Host.Outcome State Fault Refusal :=
  .next (s.onEngine Engine.buildAll)

end Sys2Proof.Machine
end

