-- ==== Sys2Proof/Machine/Compressor.lean ====
section
/-! DEFINITION. The Vector Compressor: the round constants (R123 to R126, R130), the round in its two forms (R128, R129),
`compress1` (R121) and the meaning of `compress`. Tables K and g are the spec's own, which it marks as supplied from
general knowledge (R124, R125; `93_implementation_defined.md` G1, G2). -/

namespace Sys2Proof.Machine

/-- The initial vector (A0, B0, C0, D0) (R123). -/
def initialVector : Quad := ⟨0x67452301, 0xEFCDAB89, 0x98BADCFE, 0x10325476⟩

/-- `K[0..16)` (R130). -/
def kGroup1 : List Word :=
  [0xD76AA478, 0xE8C7B756, 0x242070DB, 0xC1BDCEEE, 0xF57C0FAF, 0x4787C62A, 0xA8304613, 0xFD469501,
   0x698098D8, 0x8B44F7AF, 0xFFFF5BB1, 0x895CD7BE, 0x6B901122, 0xFD987193, 0xA679438E, 0x49B40821]

/-- `K[16..32)` (R130). -/
def kGroup2 : List Word :=
  [0xF61E2562, 0xC040B340, 0x265E5A51, 0xE9B6C7AA, 0xD62F105D, 0x02441453, 0xD8A1E681, 0xE7D3FBC8,
   0x21E1CDE6, 0xC33707D6, 0xF4D50D87, 0x455A14ED, 0xA9E3E905, 0xFCEFA3F8, 0x676F02D9, 0x8D2A4C8A]

/-- `K[32..48)` (R130). -/
def kGroup3 : List Word :=
  [0xFFFA3942, 0x8771F681, 0x6D9D6122, 0xFDE5380C, 0xA4BEEA44, 0x4BDECFA9, 0xF6BB4B60, 0xBEBFBC70,
   0x289B7EC6, 0xEAA127FA, 0xD4EF3085, 0x04881D05, 0xD9D4D039, 0xE6DB99E5, 0x1FA27CF8, 0xC4AC5665]

/-- `K[48..64)` (R130). -/
def kGroup4 : List Word :=
  [0xF4292244, 0x432AFF97, 0xAB9423A7, 0xFC93A039, 0x655B59C3, 0x8F0CCC92, 0xFFEFF47D, 0x85845DD1,
   0x6FA87E4F, 0xFE2CE6E0, 0xA3014314, 0x4E0811A1, 0xF7537E82, 0xBD3AF235, 0x2AD7D2BB, 0xEB86D391]

/-- The additive constant `K[r]`, `r` = 0..63 (R124, R130). -/
def roundK (r : Nat) : Word := (kGroup1 ++ kGroup2 ++ kGroup3 ++ kGroup4).getD r 0

/-- The message-word selector `g[r]`, `r` = 0..63 (R125). -/
def roundG (r : Nat) : Fin 16 :=
  if r < 16 then Fin.ofNat 16 r
  else if r < 32 then Fin.ofNat 16 (5 * r + 1)
  else if r < 48 then Fin.ofNat 16 (3 * r + 5)
  else Fin.ofNat 16 (7 * r)

/-- The four rows of four shift amounts (R126). -/
def shiftRows : List (List Nat) :=
  [[7, 12, 17, 22], [5, 9, 14, 20], [4, 11, 16, 23], [6, 10, 15, 21]]

/-- The shift amount `s[r] = row[r div 16][r mod 4]` (R126). -/
def roundS (r : Nat) : Nat := (shiftRows.getD (r / 16) []).getD (r % 4) 0

/-- The nonlinear function `f(r, b, c, d)` (R127). -/
def roundF (r : Nat) (b c d : Word) : Word :=
  if r < 16 then (b &&& c) ||| (~~~b &&& d)
  else if r < 32 then (b &&& d) ||| (c &&& ~~~d)
  else if r < 48 then b ^^^ c ^^^ d
  else c ^^^ (b ||| ~~~d)

/-- `b + rotl32(a + f(r, b, c, d) + K[r] + m[g[r]], s[r])`: the word a round computes (R128, R129). -/
def roundWord (m : Vector Word 16) (r : Nat) (a b c d : Word) : Word :=
  b + rotl32 (a + roundF r b c d + roundK r + m[roundG r]) (roundS r)

/-- Round `r` in the rotating-variable form (R128). -/
def round (m : Vector Word 16) (r : Nat) (q : Quad) : Quad :=
  ⟨q.d, roundWord m r q.a q.b q.c q.d, q.b, q.c⟩

/-- The working words after rounds 0, 1, …, `n − 1`, in this order (R121, R128). -/
def rounds (m : Vector Word 16) : Nat → Quad
  | 0 => initialVector
  | n + 1 => round m n (rounds m n)

/-- Word by word addition modulo 2^32 (R9, R131). -/
def addQuads (x y : Quad) : Quad := ⟨x.a + y.a, x.b + y.b, x.c + y.c, x.d + y.d⟩

/-- `compress1`, the compression of one block (R121): 64 rounds, then the initial vector is added back (R131). The words
come out raw, with no byte swap (R132). -/
def compress1 (b : Block) : Quad := addQuads (rounds (schedule b) Config.NR) initialVector

/-- The Vector Compressor over the batch: lane by lane, from the block alone (R121, R134). -/
def Engine.compressAll (e : Engine) : Engine := e.setQuads fun j => compress1 (e.block j)

/-- `compress` (R121). -/
def execCompress (s : State) : Host.Outcome State Fault Refusal :=
  .next (s.onEngine Engine.compressAll)

/-! ### The named-word form (R129)

The source's own way to write a round. It computes nothing the machine uses: it is here as the second definition of the
same function. -/

/-- Round `r` on the four named words: the roles `(a, b, c, d)` are a cyclic rotation of (A, B, C, D), and only the word in
role `a` is written (R129). -/
def namedRound (m : Vector Word 16) (r : Nat) (q : Quad) : Quad :=
  match r % 4 with
  | 0 => { q with a := roundWord m r q.a q.b q.c q.d }
  | 1 => { q with d := roundWord m r q.d q.a q.b q.c }
  | 2 => { q with c := roundWord m r q.c q.d q.a q.b }
  | _ => { q with b := roundWord m r q.b q.c q.d q.a }

/-- The named words after rounds 0, 1, …, `n − 1` (R129). -/
def namedRounds (m : Vector Word 16) : Nat → Quad
  | 0 => initialVector
  | n + 1 => namedRound m n (namedRounds m n)

/-- The named words in the role order of round `r` (the table of R129). -/
def roleOrder (r : Nat) (q : Quad) : Quad :=
  match r % 4 with
  | 0 => ⟨q.a, q.b, q.c, q.d⟩
  | 1 => ⟨q.d, q.a, q.b, q.c⟩
  | 2 => ⟨q.c, q.d, q.a, q.b⟩
  | _ => ⟨q.b, q.c, q.d, q.a⟩

end Sys2Proof.Machine
end

