-- ==== Sys2Proof/Machine/Flags.lean ====
section
/-! DEFINITION. The one flag of the engine, `STATUS.ERR`, as the host reads and writes it (R27, R61, R62). -/

namespace Sys2Proof.Machine

/-- `zext_32(STATUS.ERR)`: bit 0 is `ERR`, bits 31:1 read as 0 (R27, R61). -/
def Engine.statusWord (e : Engine) : Word := if e.err then 1 else 0

/-- A write of `v` to `STATUS`: bit 0 set acknowledges the error, bit 0 clear does nothing, bits 31:1 are ignored (R62). -/
def Engine.writeStatus (e : Engine) (v : Word) : Engine :=
  if v.getLsbD 0 then e.acknowledgeError else e

end Sys2Proof.Machine
end

