-- ==== Sys2Proof/Machine/Formatter.lean ====
section
/-! DEFINITION. The Digest Consumer: digest bytes, presented words, hex string (R161 to R166), the hex expansion (R167), the
meaning of `expand_hex` (R168), and the zero-nibble predicate that the host evaluates (R164). -/

namespace Sys2Proof.Machine

/-- `DIG[n]`, `n` = `4w + k`: byte `k` of word `w`, low-order byte first (R26, R161). -/
def digestByte (q : Quad) (n : Fin 16) : Byte :=
  byteOf (quadWord q (match n.val / 4 with | 0 => .a | 1 => .b | 2 => .c | _ => .d)) (n.val % 4)

/-- `P[j][w] = bswap32(V[j][w])`, a view computed at the moment it is read (R25, R162). -/
def Engine.presented (e : Engine) (j : Lane) (w : WordSel) : Word := bswap32 (e.word j w)

/-- `hexchar(v)`: '0'..'9' for 0 to 9, 'a'..'f' for 10 to 15, in ASCII (R166). -/
def hexChar (v : Nibble) : Byte :=
  if v.toNat ≤ 9 then BitVec.ofNat 8 (0x30 + v.toNat) else BitVec.ofNat 8 (0x57 + v.toNat)

/-- `HEX[k]`: the character of digest byte `k div 2`, its high nibble first (R165). -/
def hexByte (q : Quad) (k : Fin 32) : Byte :=
  let byte := digestByte q ⟨k.val / 2, by omega⟩
  if k.val % 2 = 0 then hexChar (highNibble byte) else hexChar (lowNibble byte)

/-- The hex string of a digest: 32 characters (R165). -/
def hexString (q : Quad) : List Byte := List.ofFn (hexByte q)

/-- `hex_expand(a, b, c, d)` (R167): the 32 characters, 0x80, and zeros but for the value 1 at byte 57. -/
def hexExpand (q : Quad) : Block :=
  Vector.ofFn fun k : Fin 64 =>
    if h : k.val < 32 then hexByte q ⟨k.val, h⟩
    else if k.val = 32 then 0x80
    else if k.val = 57 then 0x01
    else 0x00

/-- The hex expansion over the batch (R168). -/
def Engine.expandAll (e : Engine) : Engine := e.setBlocks fun j => hexExpand (e.quad j)

/-- `expand_hex` (R168). -/
def execExpandHex (s : State) : Host.Outcome State Fault Refusal :=
  .next (s.onEngine Engine.expandAll)

/-! ### The prefix-mining predicate (R164), evaluated by the host on the words it reads -/

/-- `N = PA·2^96 + PB·2^64 + PC·2^32 + PD`, the presented digest as a number (R164). -/
def digestNumber (q : Quad) : Nat :=
  (bswap32 q.a).toNat * 2 ^ 96 + (bswap32 q.b).toNat * 2 ^ 64 + (bswap32 q.c).toNat * 2 ^ 32 + (bswap32 q.d).toNat

/-- The first `K` hex digits of the presented digest are zero, `K` = 0..32 (R164). -/
def leadingZeros (q : Quad) (K : Nat) : Bool := digestNumber q / 2 ^ (128 - 4 * K) == 0

/-- The greatest `K ≤ bound` for which `leadingZeros` holds. -/
def greatestLeadingZeros (q : Quad) : (bound : Nat) → Nat
  | 0 => 0
  | k + 1 => if leadingZeros q (k + 1) then k + 1 else greatestLeadingZeros q k

/-- The zero-nibble prefix of a digest: how many leading hex digits are '0' (R164). -/
def zeroNibblePrefix (q : Quad) : Nat := greatestLeadingZeros q 32

end Sys2Proof.Machine
end

