-- ==== Sys2Proof/Machine/Window.lean ====
section
/-! DEFINITION. The meanings of the host accesses to the register window (R55 to R62), and of a command word written to
`CMD` (R60, R82, R86). -/

namespace Sys2Proof.Machine

/-- `RegRead` of `BLKW[j][i]` (R55). -/
def execRdBlkw (j : Lane) (i : Fin 16) (s : State) : Host.Outcome State Fault Refusal :=
  .next (s.deliver (s.eng.blkw j i))

/-- `RegWrite` of `BLKW[j][i]` (R56). -/
def execWrBlkw (j : Lane) (i : Fin 16) (value : Word) (s : State) : Host.Outcome State Fault Refusal :=
  .next (s.onEngine fun e => e.setBlkw j i value)

/-- `RegRead` of `LEN[j]` (R57). -/
def execRdLen (j : Lane) (s : State) : Host.Outcome State Fault Refusal :=
  .next (s.deliver s.eng.len[j])

/-- `RegWrite` of `LEN[j]`: all 32 bits, unchecked (R57). -/
def execWrLen (j : Lane) (value : Word) (s : State) : Host.Outcome State Fault Refusal :=
  .next (s.onEngine fun e => e.setLen j value)

/-- `RegRead` of the raw word `V[j][w]` (R58). -/
def execRdV (j : Lane) (w : WordSel) (s : State) : Host.Outcome State Fault Refusal :=
  .next (s.deliver (s.eng.word j w))

/-- `RegWrite` of the raw word `V[j][w]` (R58). -/
def execWrV (j : Lane) (w : WordSel) (value : Word) (s : State) : Host.Outcome State Fault Refusal :=
  .next (s.onEngine fun e => e.setWord j w value)

/-- `RegRead` of the presented word `P[j][w]` (R59). -/
def execRdP (j : Lane) (w : WordSel) (s : State) : Host.Outcome State Fault Refusal :=
  .next (s.deliver (s.eng.presented j w))

/-- `RegRead` of `STATUS`; it does not clear `ERR` (R61). -/
def execRdStatus (s : State) : Host.Outcome State Fault Refusal :=
  .next (s.deliver s.eng.statusWord)

/-- `RegWrite` of `STATUS`: write one to clear (R62). -/
def execWrStatus (value : Word) (s : State) : Host.Outcome State Fault Refusal :=
  .next (s.onEngine fun e => e.writeStatus value)

/-- What the engine does on the command word `v`: the whole operation it encodes (R60, R82); a reserved word changes no
state, `STATUS` included, and is not reported (R86; DESIGN CHOICE, log entry 6). -/
def Engine.command (v : Word) (e : Engine) : Engine :=
  match decodeCommand v with
  | .ok .buildBlocks => e.buildAll
  | .ok .compress => e.compressAll
  | .ok .expandHex => e.expandAll
  | .error _ => e

/-- `RegWrite` of `CMD`: it completes when the operation has completed (R60). -/
def execWrCmd (value : Word) (s : State) : Host.Outcome State Fault Refusal :=
  .next (s.onEngine (Engine.command value))

end Sys2Proof.Machine
end

