-- ==== Sys2Proof/Machine/Dispatch.lean ====
section
/-! DEFINITION. One arm per instruction. -/

namespace Sys2Proof.Machine

def exec (i : Instr) (s : State) : Host.Outcome State Fault Refusal :=
  match i with
  | .buildBlocks => Sys2Proof.Machine.execBuildBlocks s
  | .compress => Sys2Proof.Machine.execCompress s
  | .expandHex => Sys2Proof.Machine.execExpandHex s
  | .rdBlkw j n => Sys2Proof.Machine.execRdBlkw j n s
  | .wrBlkw j n value => Sys2Proof.Machine.execWrBlkw j n value s
  | .rdLen j => Sys2Proof.Machine.execRdLen j s
  | .wrLen j value => Sys2Proof.Machine.execWrLen j value s
  | .rdV j w => Sys2Proof.Machine.execRdV j w s
  | .wrV j w value => Sys2Proof.Machine.execWrV j w value s
  | .rdP j w => Sys2Proof.Machine.execRdP j w s
  | .wrCmd value => Sys2Proof.Machine.execWrCmd value s
  | .rdStatus => Sys2Proof.Machine.execRdStatus s
  | .wrStatus value => Sys2Proof.Machine.execWrStatus value s

end Sys2Proof.Machine
end

