-- ==== Sys2Proof/Machine/Step.lean ====
section
/-! DEFINITION. One step of one instance: the oldest host action that is pending takes effect, whole (R17, R65). Nothing
pending: the engine is idle and its state stays as it is (R207, R220, R234; DEDUCED, log entry 11). -/

namespace Sys2Proof.Machine

/-- The engine has no program counter: the next action is the host's (R29, R65). -/
def step (s : State) : Host.Outcome State Fault Refusal :=
  match s.pending with
  | [] => .next s
  | .reset :: rest => .next ({ s with pending := rest }).takeReset
  | .access a :: rest =>
    match decode (.access a) with
    | .ok i => exec i { s with pending := rest }
    | .error _ => .next (({ s with pending := rest }).reservedAccess a.dir)

/-- `s` with the instruction of these table bits as the host's next access (DESIGN CHOICE, log entries 2 and 10). A command word is written to
`CMD` (R28, R88). -/
def State.withFetchWord (s : State) (nbits w : Nat) : State :=
  { s with pending := .access (portAccess (tableEncoding nbits w)) :: s.pending }

end Sys2Proof.Machine
end

