-- ==== Sys2Proof/Machine/Platform.lean ====
section
/-! DEFINITION. Several instances (R205): each has its own state and its own window, they share nothing, and one of them
steps at a time. -/

namespace Sys2Proof.Machine

/-- The instances of a platform. -/
abbrev Platform := List State

/-- Instance `n` makes a step; the others keep their state (R66, R205). Where there is no such instance, or it stops,
nothing happens (DESIGN CHOICE, log entry 16). The instances share no state, but the free values know no instance: two
that draw at the same count draw the same (DESIGN CHOICE, log entries 1, 7, 16). -/
def Platform.stepAt (p : Platform) (n : Nat) : Platform :=
  match p[n]? with
  | none => p
  | some s =>
    match step s with
    | .next t => p.set n t
    | .fault _ => p
    | .refused _ => p

end Sys2Proof.Machine
end

