-- ==== Sys2Proof/Machine/Script.lean ====
section
/-! DEFINITION. Script lines and pseudo-instructions as the host actions they expand to (R88, R89). -/

namespace Sys2Proof.Machine

/-- The line `WR r, value` (R88). -/
def lineWr (r : Reg) (value : Word) : HostAction := .access (writeAccess r value)

/-- The line `RD r` (R88). -/
def lineRd (r : Reg) : HostAction := .access (readAccess r)

/-- The host action that an instruction's line stands for; a command's mnemonic is a write of its word to `CMD` (R88). -/
def line (i : Instr) : HostAction := .access (portAccess (encode i))

/-- `setmsg j, msg` (R89): the message's words, missing bytes of the last one 0x00, at most the block's sixteen; then its
length, modulo 2^32 (DESIGN CHOICE, log entry 15). -/
def setmsg (j : Lane) (msg : List Byte) : Script :=
  ((List.finRange 16).filter fun i => decide (4 * i.val < msg.length)).map (fun i =>
      lineWr (.blkw j i)
        (le32 (msg.getD (4 * i.val) 0) (msg.getD (4 * i.val + 1) 0) (msg.getD (4 * i.val + 2) 0)
          (msg.getD (4 * i.val + 3) 0))) ++
    [lineWr (.len j) (BitVec.ofNat 32 msg.length)]

/-- `hash` (R89). -/
def hash : Script := [line .buildBlocks, line .compress]

/-- `rehash` (R89). -/
def rehash : Script := [line .expandHex, line .compress]

/-- `stretch n` (R89). -/
def stretch : Nat → Script
  | 0 => []
  | n + 1 => rehash ++ stretch n

/-- `clrerr` (R89). -/
def clrerr : Script := [lineWr .status 1]

end Sys2Proof.Machine
end

