-- ==== Sys2Proof/Machine/Footprint.lean ====
section
/-! DEFINITION. Which elements of the engine an operation reads and which it writes (R35, R81, the operand lists of R103,
R121, R168 and R55 to R62), and, along a run, which elements have been written (R222; premise 6 of R235). Nothing that
runs consults it: it is what claims are stated with. -/

namespace Sys2Proof.Machine

/-- An element of the engine that reset leaves unspecified (R20, R36): all of them but `STATUS`. -/
inductive Element where
  /-- `BLK[j][k]` -/
  | byte (j : Lane) (k : Fin 64)
  /-- `LEN[j]` -/
  | len (j : Lane)
  /-- `V[j][w]` -/
  | word (j : Lane) (w : WordSel)
  deriving DecidableEq, Repr

/-- Every element: per lane 64 bytes, a length and four words (R20). -/
def Element.all : List Element :=
  (List.finRange 8).flatMap fun j =>
    (List.finRange 64).map (Element.byte j) ++ [.len j, .word j .a, .word j .b, .word j .c, .word j .d]

/-- Two engines hold the same at an element. -/
def Engine.sameAt (e e' : Engine) : Element → Prop
  | .byte j k => (e.block j)[k] = (e'.block j)[k]
  | .len j => e.len[j] = e'.len[j]
  | .word j w => e.word j w = e'.word j w

/-- The byte is one of the four of `BLKW[j][i]` (R22). -/
def Element.inBlkw (j : Lane) (i : Fin 16) : Element → Bool
  | .byte l k => l == j && k.val / 4 == i.val
  | .len _ => false
  | .word _ _ => false

/-- What an operation reads: `build_blocks` all lengths and, in every lane, the bytes below `min(LEN, 55)` (R103);
`compress` every byte (R121); `expand_hex` every word (R168). -/
def Engine.commandReads (e : Engine) : Command → Element → Bool
  | .buildBlocks, .byte j k => decide (k.val < min (e.length j) Config.LMAX)
  | .buildBlocks, .len _ => true
  | .buildBlocks, .word _ _ => false
  | .compress, .byte _ _ => true
  | .compress, .len _ => false
  | .compress, .word _ _ => false
  | .expandHex, .byte _ _ => false
  | .expandHex, .len _ => false
  | .expandHex, .word _ _ => true

/-- What an operation writes: `build_blocks` the bytes from `LEN` on in every lane, and none when it fails (R103, R106,
R107); `compress` every word (R121); `expand_hex` every byte (R168). -/
def Engine.commandWrites (e : Engine) : Command → Element → Bool
  | .buildBlocks, .byte j k => !e.someTooLong && decide (e.length j ≤ k.val)
  | .buildBlocks, .len _ => false
  | .buildBlocks, .word _ _ => false
  | .compress, .byte _ _ => false
  | .compress, .len _ => false
  | .compress, .word _ _ => true
  | .expandHex, .byte _ _ => true
  | .expandHex, .len _ => false
  | .expandHex, .word _ _ => false

/-- What an instruction reads (R55 to R62, R81). A write of `CMD` reads what its operation reads, a reserved word nothing
(R60, R86). -/
def Engine.instrReads (e : Engine) (i : Instr) (x : Element) : Bool :=
  match i with
  | .buildBlocks => e.commandReads .buildBlocks x
  | .compress => e.commandReads .compress x
  | .expandHex => e.commandReads .expandHex x
  | .rdBlkw j n => x.inBlkw j n
  | .wrBlkw _ _ _ => false
  | .rdLen j => x == .len j
  | .wrLen _ _ => false
  | .rdV j w => x == .word j w
  | .wrV _ _ _ => false
  | .rdP j w => x == .word j w
  | .wrCmd value =>
    match decodeCommand value with
    | .ok c => e.commandReads c x
    | .error _ => false
  | .rdStatus => false
  | .wrStatus _ => false

/-- What an instruction writes (R55 to R62, R81). -/
def Engine.instrWrites (e : Engine) (i : Instr) (x : Element) : Bool :=
  match i with
  | .buildBlocks => e.commandWrites .buildBlocks x
  | .compress => e.commandWrites .compress x
  | .expandHex => e.commandWrites .expandHex x
  | .rdBlkw _ _ => false
  | .wrBlkw j n _ => x.inBlkw j n
  | .rdLen _ => false
  | .wrLen j _ => x == .len j
  | .rdV _ _ => false
  | .wrV j w _ => x == .word j w
  | .rdP _ _ => false
  | .wrCmd value =>
    match decodeCommand value with
    | .ok c => e.commandWrites c x
    | .error _ => false
  | .rdStatus => false
  | .wrStatus _ => false

/-- The elements that count as written: since the last reset, or given at the start of the run. -/
abbrev Written := Element → Bool

/-- Just after reset nothing has been written (R36, R220). -/
def Written.nothing : Written := fun _ => false

/-- What has been written after one more action: an instruction adds what it writes, a reserved access nothing (R63), and
after a reset everything is unspecified again (R36). -/
def Written.after (given : Written) (e : Engine) : HostAction → Written
  | .reset => Written.nothing
  | .access a =>
    match decode (.access a) with
    | .ok i => fun x => given x || e.instrWrites i x
    | .error _ => given

/-- What has been written after `n` steps from `s`. -/
def Written.afterSteps : Nat → Written → State → Written
  | 0, given, _ => given
  | n + 1, given, s =>
    match s.pending, step s with
    | x :: _, .next t => Written.afterSteps n (given.after s.eng x) t
    | _, _ => given

/-- `ok` holds of each of the first `n` actions of `s`, of what has been written before it and the engine it meets. -/
def Written.throughout (ok : Written → Engine → HostAction → Bool) : Nat → Written → State → Bool
  | 0, _, _ => true
  | n + 1, given, s =>
    match s.pending, step s with
    | [], _ => true
    | x :: _, .next t => ok given s.eng x && Written.throughout ok n (given.after s.eng x) t
    | x :: _, _ => ok given s.eng x

end Sys2Proof.Machine
end

