-- ==== Sys2Proof/WellFormed.lean ====
section
/-! DEFINITION. What software may write down: the form of a host access (R54) and of an instruction (R86). The bounds of
lanes, word indices and word selectors are in their types. -/

namespace Sys2Proof

/-- The form of a host access (R54): 32 bits wide, at an offset that is a multiple of 4; and a read carries no data (the
one spelling of a read, R88). -/
def Access.wf (a : Access) : Bool :=
  a.width == 32 && a.off.toNat % 4 == 0 &&
    (match a.dir with
     | .read => a.data == 0
     | .write => true)

/-- Software writes no reserved command word to `CMD` (R86). Every other instruction is well formed with any operands. -/
def Instr.wf : Instr → Bool
  | .buildBlocks => true
  | .compress => true
  | .expandHex => true
  | .rdBlkw _ _ => true
  | .wrBlkw _ _ _ => true
  | .rdLen _ => true
  | .wrLen _ _ => true
  | .rdV _ _ => true
  | .wrV _ _ _ => true
  | .rdP _ _ => true
  | .wrCmd value => value == 1 || value == 2 || value == 3
  | .rdStatus => true
  | .wrStatus _ => true

end Sys2Proof
end

