-- ==== Sys2Proof/Safety.lean ====
section
/-! DEFINITION. What counts as a safe run, in the terms claims use: the reserved actions that the spec advises a model to
refuse (R63, R86, R235), the machine that refuses them, runs to their end (R234), the premises a claim about a run must
name (R235), and the premises under which InputTooLong cannot occur (R222, R232). -/

namespace Sys2Proof.Safety

open Sys2Proof.Machine

/-- What a reserved action is refused for: a reserved access (R63) or a reserved command word (R86). -/
def reservedUse : HostAction → Option Refusal
  | .reset => none
  | .access a =>
    match decode (.access a) with
    | .error e => some (.reservedAccess e)
    | .ok i => if i.wf then none else some (.reservedCommand a.data)

/-- The machine that gives a script with a reserved action no meaning (R63, R86; U2, U3): it refuses by name where `step`
performs what R63 and R86 say the hardware does, and is `step` everywhere else (DESIGN CHOICE, log entry 6). -/
def strictStep (s : State) : Host.Outcome State Fault Refusal :=
  match s.pending with
  | [] => step s
  | x :: _ =>
    match reservedUse x with
    | some r => .refused r
    | none => step s

/-- The run of everything the host has issued: one step for each pending action (R234). -/
def runPending (s : State) : Host.Outcome State Fault Refusal := Sys2Proof.core.run s.pending.length s

/-- The strict machine as a machine: it differs from `Sys2Proof.core` in its step only. -/
def strictCore : Host.Core :=
  { State := Sys2Proof.Machine.State, Fault := Sys2Proof.Machine.Fault, Refusal := Sys2Proof.Machine.Refusal,
    step := strictStep, reset := Sys2Proof.Machine.State.reset }

/-- The elements a claim speaks of when it speaks of the lanes `lanes`: their bytes and words, and all eight lengths, which
every `build_blocks` checks (R222; R235, premise 6). -/
def concerns (lanes : Lane → Bool) : Element → Bool
  | .byte j _ => lanes j
  | .len _ => true
  | .word j _ => lanes j

/-- Every lane. -/
def everyLane : Lane → Bool := fun _ => true

/-- Everything that concerns `lanes` and that the action reads counts as written. -/
def readsAreWritten (lanes : Lane → Bool) (given : Written) (e : Engine) : HostAction → Bool
  | .reset => true
  | .access a =>
    match decode (.access a) with
    | .ok i => Element.all.all fun x => !(e.instrReads i x && concerns lanes x) || given x
    | .error _ => true

/-- The same of the actions that are commands; the host may read an element that is not yet written and receives what
reset left in it (R36; DESIGN CHOICE, log entry 17). -/
def commandReadsAreWritten (lanes : Lane → Bool) (given : Written) (e : Engine) : HostAction → Bool
  | .reset => true
  | .access a =>
    match a.dir with
    | .read => true
    | .write => readsAreWritten lanes given e (.access a)

/-- What a claim says of the start of its run (R235, premise 1). -/
inductive Start where
  /-- just after reset: every element but `STATUS.ERR` unspecified -/
  | afterReset
  /-- the elements of `values` have the values they have in the start state, which the claim gives -/
  | given (values : Written)

/-- The elements whose values are known at the start. -/
def Start.known : Start → Written
  | .afterReset => Written.nothing
  | .given values => values

/-- Premise 1 of R235 of the start state `s`. Every state with `ERR` = 0 can be the one just after reset, since each of the
other elements may hold any value (R36). Values given at the start must include each element that the script reads
before it writes it, whoever reads it and in whatever lane. -/
def Start.holds (s : State) : Start → Prop
  | .afterReset => s.eng.err = false
  | .given values => Written.throughout (readsAreWritten everyLane) s.pending.length values s = true

/-- The premises that R235 asks of a claim about a run of the script `s.pending` from `s`, when the claim speaks of the
lanes `lanes`. Premise 3, one host whose accesses arrive in issue order, is the order of `pending`. -/
structure DefinedRun (lanes : Lane → Bool) (start : Start) (s : State) : Prop where
  /-- premise 1: the start state -/
  starts     : start.holds s
  /-- premise 2: no error is recorded at the start -/
  clear      : s.eng.err = false
  /-- premise 4: no reserved access and no reserved command word -/
  noReserved : ∀ x ∈ s.pending, reservedUse x = none
  /-- premise 5: no reset during the run -/
  noReset    : HostAction.reset ∉ s.pending
  /-- premise 6: what each command reads has been written (or given at the start), in the lanes the claim speaks of, and
  all eight lengths before any `build_blocks` -/
  written    : Written.throughout (commandReadsAreWritten lanes) s.pending.length start.known s = true

/-- Two engines agree on what a claim may speak of: `ERR`, and each element that concerns `lanes` and counts as written. -/
structure AgreeOn (lanes : Lane → Bool) (given : Written) (e e' : Engine) : Prop where
  err  : e.err = e'.err
  same : ∀ x, given x = true → concerns lanes x = true → e.sameAt e' x

/-- An action that cannot lead to InputTooLong by itself: no reset (which leaves `LEN` unspecified, R36) and no write of a
length of 56 or more (R102). -/
def keepsLengthsShort : HostAction → Bool
  | .reset => false
  | .access a =>
    match decode (.access a) with
    | .ok (.wrLen _ value) => decide (value.toNat ≤ Config.LMAX)
    | _ => true

/-- An action that is not the command `build_blocks`, the only one that can raise InputTooLong (R190). -/
def buildsNothing : HostAction → Bool
  | .reset => true
  | .access a =>
    match decode (.access a) with
    | .ok (.wrCmd value) => value != 1
    | _ => true

/-- The premise of R232: no error is recorded, every length is below 56, and the host issues nothing that breaks that. -/
structure ShortLengths (s : State) : Prop where
  clear : s.eng.err = false
  short : ∀ j : Lane, s.eng.length j < 56
  host  : ∀ x ∈ s.pending, keepsLengthsShort x = true

/-- No error is recorded and the host issues no `build_blocks` (R27, R190). -/
structure NeverBuilds (s : State) : Prop where
  clear : s.eng.err = false
  host  : ∀ x ∈ s.pending, buildsNothing x = true

end Sys2Proof.Safety
end

