-- ==== Sys2Proof/Certificates/Slice0/Obligations.lean ====
section
/-! DEFINITION. The statements for the provers. A conclusion `∃ x, exec i s = .next { s with eng := { s.eng with f := x } } ∧ …`
says that the instruction completes and that nothing but the element `f` changes: its frame stands in the equation. -/

open Sys2Proof Sys2Proof.Machine Sys2Proof.Safety

/-! ### Encoding -/

/-- A few words written out from the spec's tables decode to what they stand for (R82 to R85; `95_test_vectors.md` 2.5). -/
def Obligations.SpecWordsDecode : Prop :=
  decode (.command 0x00000001) = .ok .buildBlocks ∧ decode (.command 0x00000002) = .ok .compress ∧
  decode (.command 0x00000003) = .ok .expandHex ∧
  decode (.access ⟨.write, 32, 0x0C4, 0x11223344⟩) = .ok (.wrBlkw 3 1 0x11223344) ∧
  decode (.access ⟨.read, 32, 0x1FC, 0⟩) = .ok (.rdBlkw 7 15) ∧
  decode (.access ⟨.write, 32, 0x21C, 55⟩) = .ok (.wrLen 7 55) ∧
  decode (.access ⟨.read, 32, 0x2B8, 0⟩) = .ok (.rdV 3 .c) ∧
  decode (.access ⟨.read, 32, 0x338, 0⟩) = .ok (.rdP 3 .c) ∧
  decode (.access ⟨.write, 32, 0x380, 2⟩) = .ok (.wrCmd 2) ∧
  decode (.access ⟨.read, 32, 0x384, 0⟩) = .ok .rdStatus ∧
  decode (.access ⟨.write, 32, 0x384, 1⟩) = .ok (.wrStatus 1)

/-- Every instruction, with every operand, is read back from its encoding (R51, R82). -/
def Obligations.DecodeAfterEncodeIsIdentity : Prop :=
  ∀ i : Instr, decode (encode i) = .ok i

/-- Each encoding has one meaning and each meaning one encoding: a command word, and an access of the form of R54, decodes
to `i` exactly when it is the encoding of `i`. -/
def Obligations.DecodingIsEncodingReversed : Prop :=
  (∀ (v : Word) (i : Instr), decode (.command v) = .ok i ↔ encode i = .command v) ∧
  (∀ (a : Access) (i : Instr), a.wf = true → (decode (.access a) = .ok i ↔ encode i = .access a))

/-- The decoder and the opcode table's thirteen rows of patterns and masks agree: an encoding has a meaning exactly when a
row matches it, the row is that of the instruction, and no encoding matches two rows. -/
def Obligations.DecoderAgreesWithOpcodeTable : Prop :=
  (∀ x : Encoding, (∃ i, decode x = .ok i) ↔ ∃ row ∈ opcodeTable, rowMatches row x = true) ∧
  (∀ (x : Encoding) (i : Instr), decode x = .ok i → rowMatches (opcodeRow i) x = true) ∧
  (∀ x : Encoding, opcodeTable.Pairwise fun r r' => ¬(rowMatches r x = true ∧ rowMatches r' x = true))

/-- R82: bits 31:8 must be zero and bits 7:0 select 1, 2 or 3; every other word is reserved. -/
def Obligations.CommandWordDecoding : Prop :=
  ∀ v : Word, decode (.command v) =
    if v.extractLsb' 8 24 ≠ 0 then .error .reservedCommand
    else if v.toNat = 1 then .ok .buildBlocks
    else if v.toNat = 2 then .ok .compress
    else if v.toNat = 3 then .ok .expandHex
    else .error .reservedCommand

/-! ### The step -/

/-- A step runs the decoded instruction: the host's oldest access takes effect as `exec` of what it decodes to, with the
access taken from the pending ones (R65); a command word written to `CMD` runs as the command's own instruction (R60). -/
def Obligations.StepRunsDecodedAccess : Prop :=
  (∀ (s : State) (a : Access) (rest : Script) (i : Instr), s.pending = .access a :: rest → decode (.access a) = .ok i →
    step s = exec i { s with pending := rest }) ∧
  (∀ (s : State) (v : Word) (rest : Script) (i : Instr),
    s.pending = .access (portAccess (.command v)) :: rest → decode (.command v) = .ok i →
    step s = exec i { s with pending := rest })

/-- With nothing pending the engine is idle: its state stays as it is until the next access (R207, R234). -/
def Obligations.IdleStepChangesNothing : Prop :=
  ∀ s : State, s.pending = [] → step s = .next s

/-- A reserved access changes no state; a read of one returns a value, of which nothing is said, and a write returns none
(R63; that the value is a free value is the model's choice, log entry 7). The last clause is about the model's own second
machine, which refuses such an access by name (DESIGN CHOICE, log entry 6). -/
def Obligations.ReservedAccessesChangeNothing : Prop :=
  ∀ (s : State) (a : Access) (rest : Script), s.pending = .access a :: rest →
    (a.width ≠ 32 ∨ a.off.toNat % 4 ≠ 0 ∨ (0x220 ≤ a.off.toNat ∧ a.off.toNat ≤ 0x27F) ∨ 0x388 ≤ a.off.toNat ∨
      (a.dir = .write ∧ 0x300 ≤ a.off.toNat ∧ a.off.toNat ≤ 0x37F) ∨ (a.dir = .read ∧ a.off.toNat = 0x380)) →
    (∃ t, step s = .next t ∧ t.eng = s.eng ∧ t.pending = rest ∧
      (a.dir = .write → t.reads = s.reads) ∧ (a.dir = .read → ∃ v, t.reads = v :: s.reads)) ∧
    ∃ why, strictStep s = .refused (.reservedAccess why)

/-- A command word other than 1, 2, 3 changes no state, `STATUS` included, and is not reported (R86). The last clause is
about the model's own second machine, which refuses such a word by name (DESIGN CHOICE, log entry 6). -/
def Obligations.ReservedCommandWordsChangeNothing : Prop :=
  ∀ (s : State) (v : Word), v ≠ 0x00000001 → v ≠ 0x00000002 → v ≠ 0x00000003 →
    decode (.command v) = .error .reservedCommand ∧ exec (.wrCmd v) s = .next s ∧
    ∀ rest, s.pending = .access (portAccess (.command v)) :: rest →
      strictStep s = .refused (.reservedCommand v)

/-- The strict machine refuses exactly the reserved actions, and is the machine itself on all others. -/
def Obligations.StrictStepRefusesOnlyReservedActions : Prop :=
  ∀ (s : State) (x : HostAction) (rest : Script), s.pending = x :: rest →
    ((∃ r, strictStep s = .refused r) ↔ ∃ a, x = .access a ∧
      ∀ i, decode (.access a) = .ok i → ∃ v : Word, i = .wrCmd v ∧ ∀ c, decode (.command v) ≠ .ok c) ∧
    ((∃ r, strictStep s = .refused r) ∨ strictStep s = step s)

/-! ### The register window -/

/-- R55: a read at 0x000..0x1FC returns `BLKW[j][i]`, four bytes of the block in little-endian order, and changes no state
of the engine. -/
def Obligations.ReadOfBlockWord : Prop :=
  ∀ (s : State) (off : BitVec 12) (d : Word) (j : Lane) (i : Fin 16),
    off.toNat < 0x200 → off.toNat % 4 = 0 → j.val = off.toNat / 64 → i.val = off.toNat / 4 % 16 →
    decode (.access ⟨.read, 32, off, d⟩) = .ok (.rdBlkw j i) ∧
    ∃ v : Word, exec (.rdBlkw j i) s = .next { s with reads := v :: s.reads } ∧
      v.toNat = s.eng.blk[j][4 * i.val].toNat + 2 ^ 8 * s.eng.blk[j][4 * i.val + 1].toNat +
        2 ^ 16 * s.eng.blk[j][4 * i.val + 2].toNat + 2 ^ 24 * s.eng.blk[j][4 * i.val + 3].toNat

/-- R56: a write at 0x000..0x1FC puts the four bytes of the data in the block and changes nothing else. -/
def Obligations.WriteOfBlockWord : Prop :=
  ∀ (s : State) (off : BitVec 12) (v : Word) (j : Lane) (i : Fin 16),
    off.toNat < 0x200 → off.toNat % 4 = 0 → j.val = off.toNat / 64 → i.val = off.toNat / 4 % 16 →
    decode (.access ⟨.write, 32, off, v⟩) = .ok (.wrBlkw j i v) ∧
    ∃ blk', exec (.wrBlkw j i v) s = .next { s with eng := { s.eng with blk := blk' } } ∧
      ∀ (l : Lane) (k : Fin 64), blk'[l][k].toNat =
        if l = j ∧ k.val / 4 = i.val then v.toNat / 2 ^ (8 * (k.val % 4)) % 2 ^ 8 else s.eng.blk[l][k].toNat

/-- R57: `LEN[j]` is read and written at 0x200 + 4j, all 32 bits, unchecked. -/
def Obligations.LengthRegisterReadAndWrite : Prop :=
  ∀ (s : State) (j : Lane) (d v : Word),
    decode (.access ⟨.read, 32, BitVec.ofNat 12 (0x200 + 4 * j.val), d⟩) = .ok (.rdLen j) ∧
    decode (.access ⟨.write, 32, BitVec.ofNat 12 (0x200 + 4 * j.val), v⟩) = .ok (.wrLen j v) ∧
    exec (.rdLen j) s = .next { s with reads := s.eng.len[j] :: s.reads } ∧
    ∃ len', exec (.wrLen j v) s = .next { s with eng := { s.eng with len := len' } } ∧
      ∀ l : Lane, len'[l] = if l = j then v else s.eng.len[l]

/-- R58: the raw words are read and written at 0x280 + 16j + 4w; the other words, in the same lane and in the others, and
all else stay. -/
def Obligations.RawWordReadAndWrite : Prop :=
  ∀ (s : State) (j : Lane) (w : WordSel) (d v : Word),
    decode (.access ⟨.read, 32, BitVec.ofNat 12 (0x280 + 16 * j.val + 4 * wordSelIndex w), d⟩) = .ok (.rdV j w) ∧
    decode (.access ⟨.write, 32, BitVec.ofNat 12 (0x280 + 16 * j.val + 4 * wordSelIndex w), v⟩) = .ok (.wrV j w v) ∧
    exec (.rdV j w) s = .next { s with reads := quadWord (s.eng.quad j) w :: s.reads } ∧
    ∃ va' vb' vc' vd',
      exec (.wrV j w v) s = .next { s with eng := { s.eng with va := va', vb := vb', vc := vc', vd := vd' } } ∧
      ∀ l : Lane, va'[l] = (if l = j ∧ w = .a then v else s.eng.va[l]) ∧
        vb'[l] = (if l = j ∧ w = .b then v else s.eng.vb[l]) ∧
        vc'[l] = (if l = j ∧ w = .c then v else s.eng.vc[l]) ∧
        vd'[l] = (if l = j ∧ w = .d then v else s.eng.vd[l])

/-- R59: a read at 0x300 + 16j + 4w returns the raw word with its four bytes reversed; a write there is a reserved access. -/
def Obligations.ReadOfPresentedWord : Prop :=
  ∀ (s : State) (j : Lane) (w : WordSel) (d : Word),
    decode (.access ⟨.read, 32, BitVec.ofNat 12 (0x300 + 16 * j.val + 4 * wordSelIndex w), d⟩) = .ok (.rdP j w) ∧
    decode (.access ⟨.write, 32, BitVec.ofNat 12 (0x300 + 16 * j.val + 4 * wordSelIndex w), d⟩) = .error .readOnlyView ∧
    ∃ v : Word, exec (.rdP j w) s = .next { s with reads := v :: s.reads } ∧
      ∀ k : Fin 4, v.extractLsb' (8 * k.val) 8 = (quadWord (s.eng.quad j) w).extractLsb' (8 * (3 - k.val)) 8

/-- R60, R82: a write of a command word to `CMD` (0x380) performs the whole operation that the word encodes, as the
instruction of that operation does; a read of 0x380 has no meaning. -/
def Obligations.CommandWritePerformsOperation : Prop :=
  ∀ (s : State) (v d : Word),
    decode (.access ⟨.write, 32, 0x380, v⟩) = .ok (.wrCmd v) ∧
    decode (.access ⟨.read, 32, 0x380, d⟩) = .error .writeOnlyPort ∧
    ∀ i : Instr, decode (.command v) = .ok i → ∃ t, exec (.wrCmd v) s = .next t ∧ exec i s = .next t

/-- R61: a read of `STATUS` (0x384) returns 1 when `ERR` is 1 and else 0, and does not clear it. -/
def Obligations.ReadOfStatus : Prop :=
  ∀ (s : State) (d : Word),
    decode (.access ⟨.read, 32, 0x384, d⟩) = .ok .rdStatus ∧
    exec .rdStatus s = .next { s with reads := (if s.eng.err = true then 0x00000001 else 0x00000000) :: s.reads }

/-- R62: a write to `STATUS` with bit 0 set clears `ERR`; with bit 0 clear it changes nothing; the other bits do not
matter. -/
def Obligations.WriteOfStatus : Prop :=
  ∀ (s : State) (v : Word),
    decode (.access ⟨.write, 32, 0x384, v⟩) = .ok (.wrStatus v) ∧
    (v.toNat % 2 = 1 → exec (.wrStatus v) s = .next { s with eng := { s.eng with err := false } }) ∧
    (v.toNat % 2 = 0 → exec (.wrStatus v) s = .next s)

/-- No access has a side effect when it reads: a read at any offset, of any width, leaves the engine as it was, and
returns one value (R64; and R63 for the reserved ones). -/
def Obligations.ReadsHaveNoSideEffect : Prop :=
  ∀ (s : State) (a : Access) (rest : Script), s.pending = .access a :: rest → a.dir = .read →
    ∃ t v, step s = .next t ∧ t.eng = s.eng ∧ t.pending = rest ∧ t.reads = v :: s.reads

/-! ### The Block Builder -/

/-- R101, R104: `build_block` has a value exactly for messages of at most 55 bytes, and its bytes are the message, 0x80,
zeros, and the bit length in eight little-endian bytes: the four invariants of a message block. -/
def Obligations.BuiltBlockInvariants : Prop :=
  (∀ msg : List Byte, (∃ b, buildBlock msg = some b) ↔ msg.length < 56) ∧
  ∀ (msg : List Byte) (b : Block), buildBlock msg = some b →
    (∀ (k : Fin 64) (h : k.val < msg.length), b[k] = msg[k.val]) ∧
    (∀ k : Fin 64, k.val = msg.length → b[k] = 0x80) ∧
    (∀ k : Fin 64, msg.length < k.val → k.val < 56 → b[k] = 0x00) ∧
    (∀ k : Fin 64, 56 ≤ k.val → b[k].toNat = 8 * msg.length / 2 ^ (8 * (k.val - 56)) % 2 ^ 8)

/-- R105 (derived there): in the word view, `m[14] = 8·L` and `m[15] = 0`. -/
def Obligations.BuiltBlockLengthWords : Prop :=
  ∀ (msg : List Byte) (b : Block), buildBlock msg = some b →
    (blockWord b 14).toNat = 8 * msg.length ∧ blockWord b 15 = 0

/-- R103: when every length is below 56 each lane holds the built block of the message that stood in it, and only `BLK`
changes; when some length is 56 or more, `STATUS.ERR` becomes 1 and nothing else changes. -/
def Obligations.BuildBlocksBuildsOrRaises : Prop :=
  ∀ s : State,
    ((∀ j : Lane, s.eng.len[j].toNat < 56) →
      ∃ blk', exec .buildBlocks s = .next { s with eng := { s.eng with blk := blk' } } ∧
        ∀ j : Lane, buildBlock (s.eng.blk[j].toList.take s.eng.len[j].toNat) = some blk'[j]) ∧
    ((∃ j : Lane, 56 ≤ s.eng.len[j].toNat) →
      exec .buildBlocks s = .next { s with eng := { s.eng with err := true } })

/-- R106: the message bytes stay, every byte from `LEN[j]` to 63 is overwritten whatever stood there, and `LEN` stays. -/
def Obligations.BuildBlocksPadsInPlace : Prop :=
  ∀ s : State, (∀ j : Lane, s.eng.len[j].toNat < 56) →
    ∃ blk', exec .buildBlocks s = .next { s with eng := { s.eng with blk := blk' } } ∧
      ∀ (j : Lane) (k : Fin 64),
        (k.val < s.eng.len[j].toNat → blk'[j][k] = s.eng.blk[j][k]) ∧
        (k.val = s.eng.len[j].toNat → blk'[j][k] = 0x80) ∧
        (s.eng.len[j].toNat < k.val → k.val < 56 → blk'[j][k] = 0x00) ∧
        (56 ≤ k.val → blk'[j][k].toNat = 8 * s.eng.len[j].toNat / 2 ^ (8 * (k.val - 56)) % 2 ^ 8)

/-- R107, R193: the failure is all or nothing: one lane too long, and no lane's block is built, the others' included;
several, and `ERR` is set once. -/
def Obligations.TooLongLeavesEveryBlock : Prop :=
  ∀ (s : State) (j : Lane), 56 ≤ s.eng.len[j].toNat →
    ∃ t, exec .buildBlocks s = .next t ∧ t.eng.blk = s.eng.blk ∧ t.eng.len = s.eng.len ∧ t.eng.va = s.eng.va ∧
      t.eng.vb = s.eng.vb ∧ t.eng.vc = s.eng.vc ∧ t.eng.vd = s.eng.vd ∧ t.eng.err = true ∧
      t.reads = s.reads ∧ t.pending = s.pending

/-- A successful `build_blocks` issued again rewrites the same bytes (R109, derived there). -/
def Obligations.BuildBlocksIsIdempotent : Prop :=
  ∀ s : State, (∀ j : Lane, s.eng.len[j].toNat < 56) →
    ∃ t, exec .buildBlocks s = .next t ∧ exec .buildBlocks t = .next t

/-! ### The Vector Compressor -/

/-- R121, R137: `compress` puts `compress1` of each lane's block in the lane's four words, and leaves `BLK`, `LEN` and
`STATUS` unchanged. -/
def Obligations.CompressHashesEveryLane : Prop :=
  ∀ s : State, ∃ va' vb' vc' vd',
    exec .compress s = .next { s with eng := { s.eng with va := va', vb := vb', vc := vc', vd := vd' } } ∧
    ∀ j : Lane, compress1 s.eng.blk[j] = ⟨va'[j], vb'[j], vc'[j], vd'[j]⟩

/-- R128, with F of R127 written out and the rotation of the library: one round on four working words. -/
def Obligations.RoundComputesNextWords : Prop :=
  ∀ (m : Vector Word 16) (r : Nat) (q : Quad), r < 64 →
    ∃ F : Word,
      (r < 16 → F = (q.b &&& q.c) ||| (~~~q.b &&& q.d)) ∧
      (16 ≤ r → r < 32 → F = (q.b &&& q.d) ||| (q.c &&& ~~~q.d)) ∧
      (32 ≤ r → r < 48 → F = q.b ^^^ q.c ^^^ q.d) ∧
      (48 ≤ r → F = q.c ^^^ (q.b ||| ~~~q.d)) ∧
      Machine.round m r q =
        ⟨q.d, q.b + (q.a + F + roundK r + m[roundG r]).rotateLeft (roundS r), q.b, q.c⟩

/-- R125, R126: the 64 message-word indices as R125 writes them out, each group of sixteen rounds using every message word
once, and the 64 shift amounts, four times over in each group. -/
def Obligations.RoundTablesByGroup : Prop :=
  (List.range 64).map (fun r => (roundG r).val) =
    [0, 1, 2, 3, 4, 5, 6, 7, 8, 9, 10, 11, 12, 13, 14, 15] ++ [1, 6, 11, 0, 5, 10, 15, 4, 9, 14, 3, 8, 13, 2, 7, 12] ++
    [5, 8, 11, 14, 1, 4, 7, 10, 13, 0, 3, 6, 9, 12, 15, 2] ++ [0, 7, 14, 5, 12, 3, 10, 1, 8, 15, 6, 13, 4, 11, 2, 9] ∧
  (∀ (n : Fin 4) (i : Fin 16), ∃ k : Fin 16, roundG (16 * n.val + k.val) = i) ∧
  (List.range 64).map roundS =
    (List.replicate 4 [7, 12, 17, 22] ++ List.replicate 4 [5, 9, 14, 20] ++ List.replicate 4 [4, 11, 16, 23] ++
      List.replicate 4 [6, 10, 15, 21]).flatten

/-- The two forms of the 64 rounds compute the same (R129, derived there): after any number of rounds the rotating
variables are the named words in the role order of the next round, and after the 64 rounds the words themselves. -/
def Obligations.RotatingFormEqualsNamedForm : Prop :=
  (∀ (m : Vector Word 16) (n : Nat), rounds m n = roleOrder n (namedRounds m n)) ∧
  ∀ b : Block, compress1 b = addQuads (namedRounds (schedule b) 64) initialVector

/-- R134: a lane's words depend on that lane's block only: equal blocks, in any two lanes of any two states, give equal
words; so permuting the blocks permutes the results. -/
def Obligations.CompressedLaneDependsOnItsBlockOnly : Prop :=
  ∀ s s' : State, ∃ t t', exec .compress s = .next t ∧ exec .compress s' = .next t' ∧
    (∀ j l : Lane, s'.eng.blk[j] = s.eng.blk[l] →
      t'.eng.va[j] = t.eng.va[l] ∧ t'.eng.vb[j] = t.eng.vb[l] ∧ t'.eng.vc[j] = t.eng.vc[l] ∧ t'.eng.vd[j] = t.eng.vd[l]) ∧
    ∀ σ : Equiv.Perm Lane, (∀ j : Lane, s'.eng.blk[j] = s.eng.blk[σ j]) →
      ∀ j : Lane, t'.eng.quad j = t.eng.quad (σ j)

/-- `compress` and `expand_hex` issued twice leave what once leaves (R64 and R135, R170). -/
def Obligations.CompressAndExpandAreIdempotent : Prop :=
  ∀ s : State, (∃ t, exec .compress s = .next t ∧ exec .compress t = .next t) ∧
    ∃ t, exec .expandHex s = .next t ∧ exec .expandHex t = .next t

/-- The source's first two scenarios (`95_test_vectors.md` E1, E2): the raw words of the empty message and of "abc". -/
def Obligations.KnownDigests : Prop :=
  (buildBlock []).map compress1 = some ⟨0xD98C1DD4, 0x04B2008F, 0x980980E9, 0x7E42F8EC⟩ ∧
  (buildBlock [0x61, 0x62, 0x63]).map compress1 = some ⟨0x98500190, 0xB04FD23C, 0x7D3F96D6, 0x727FE128⟩

/-! ### The Digest Consumer -/

/-- R162: the presented word, read as a number, has the digest bytes `4w` to `4w + 3`, most significant first. -/
def Obligations.PresentedWordFromDigestBytes : Prop :=
  ∀ (e : Engine) (j : Lane) (w : WordSel) (n : Fin 16), n.val = 4 * wordSelIndex w → ∀ n1 n2 n3 : Fin 16,
    n1.val = n.val + 1 → n2.val = n.val + 2 → n3.val = n.val + 3 →
    e.presented j w = bswap32 (quadWord (e.quad j) w) ∧
    (e.presented j w).toNat = (digestByte (e.quad j) n).toNat * 2 ^ 24 + (digestByte (e.quad j) n1).toNat * 2 ^ 16 +
      (digestByte (e.quad j) n2).toNat * 2 ^ 8 + (digestByte (e.quad j) n3).toNat

/-- R165, R166: characters `2n` and `2n + 1` of the hex string are the high and the low nibble of digest byte `n`, each as
'0'..'9' or 'a'..'f' in ASCII. -/
def Obligations.HexStringSpellsDigestBytes : Prop :=
  ∀ (q : Quad) (n : Fin 16) (hi lo : Fin 32), hi.val = 2 * n.val → lo.val = 2 * n.val + 1 →
    (hexByte q hi).toNat = (digestByte q n).toNat / 16 + (if (digestByte q n).toNat / 16 ≤ 9 then 0x30 else 0x57) ∧
    (hexByte q lo).toNat = (digestByte q n).toNat % 16 + (if (digestByte q n).toNat % 16 ≤ 9 then 0x30 else 0x57)

/-- R167, R168, R172: `expand_hex` overwrites all 64 bytes of every lane's block with the hex text of the lane's digest and
the fixed trailer, and changes nothing else. -/
def Obligations.ExpandHexWritesEveryBlock : Prop :=
  ∀ s : State, ∃ blk', exec .expandHex s = .next { s with eng := { s.eng with blk := blk' } } ∧
    ∀ (j : Lane) (k : Fin 64),
      (∀ h : k.val < 32, blk'[j][k] = hexByte ⟨s.eng.va[j], s.eng.vb[j], s.eng.vc[j], s.eng.vd[j]⟩ ⟨k.val, h⟩) ∧
      (k.val = 32 → blk'[j][k] = 0x80) ∧ (33 ≤ k.val → k.val < 57 → blk'[j][k] = 0x00) ∧
      (k.val = 57 → blk'[j][k] = 0x01) ∧ (58 ≤ k.val → blk'[j][k] = 0x00)

/-- The hex expansion is the padded block of a 32-byte message, the hex string, whose characters are all lowercase hex
(R169: the equality is derived there). -/
def Obligations.HexExpansionIsBuiltBlock : Prop :=
  ∀ q : Quad, buildBlock (hexString q) = some (hexExpand q) ∧ (hexString q).length = 32 ∧
    ∀ x ∈ hexString q, (0x30 ≤ x.toNat ∧ x.toNat ≤ 0x39) ∨ (0x61 ≤ x.toNat ∧ x.toNat ≤ 0x66)

/-- R164: the predicate "the first K hex digits are zero" on the hex string, on the 128-bit number and, up to K = 8, on
`PA`; and the zero-nibble prefix is the greatest K for which it holds. -/
def Obligations.ZeroNibblePredicate : Prop :=
  ∀ q : Quad,
    (∀ K, K ≤ 32 → (leadingZeros q K = true ↔ ∀ k : Fin 32, k.val < K → hexByte q k = 0x30)) ∧
    (∀ K, K ≤ 8 → (leadingZeros q K = true ↔ (bswap32 q.a).toNat / 2 ^ (32 - 4 * K) = 0)) ∧
    leadingZeros q (zeroNibblePrefix q) = true ∧ zeroNibblePrefix q ≤ 32 ∧
    ∀ K, K ≤ 32 → leadingZeros q K = true → K ≤ zeroNibblePrefix q

/-! ### The exception and the flag -/

/-- R190, R192: InputTooLong is raised by `build_blocks` only, and only when some `LEN[j]` is 56 or more when the command
executes: from `ERR` = 0, a step leaves `ERR` = 1 exactly then. -/
def Obligations.ErrIsSetOnlyByTooLongBuild : Prop :=
  ∀ s t : State, s.eng.err = false → step s = .next t →
    (t.eng.err = true ↔
      (∃ a rest, s.pending = .access a :: rest ∧ decode (.access a) = .ok (.wrCmd 0x00000001)) ∧
        ∃ j : Lane, 56 ≤ s.eng.len[j].toNat)

/-- R27, R199: `ERR` is sticky: from `ERR` = 1, a step leaves `ERR` = 0 exactly when it is a reset or the host's write of a
word with bit 0 set to `STATUS`. -/
def Obligations.ErrIsClearedOnlyByHostOrReset : Prop :=
  ∀ s t : State, s.eng.err = true → step s = .next t →
    (t.eng.err = false ↔
      (∃ rest, s.pending = .reset :: rest) ∨
        ∃ a rest v, s.pending = .access a :: rest ∧ decode (.access a) = .ok (.wrStatus v) ∧ v.toNat % 2 = 1)

/-- R197: the complete effect of the exception is `STATUS.ERR <- 1`; R198: the acknowledgement clears `ERR` and restores
nothing else, so that after both the state is the one before the failing command, `ERR` apart. -/
def Obligations.ExceptionEntryAndReturn : Prop :=
  ∀ (s : State) (j : Lane) (v : Word), 56 ≤ s.eng.len[j].toNat → v.toNat % 2 = 1 →
    ∃ t, exec .buildBlocks s = .next t ∧ t = { s with eng := { s.eng with err := true } } ∧
      exec (.wrStatus v) t = .next { s with eng := { s.eng with err := false } }

/-- R199: no command reads `ERR`: with `ERR` changed, each command does exactly the same to the rest of the engine; and a
command that starts with `ERR` = 1 leaves it at 1. -/
def Obligations.CommandsIgnoreErr : Prop :=
  ∀ (i : Instr) (s : State) (b : Bool), i = .buildBlocks ∨ i = .compress ∨ i = .expandHex →
    ∃ t u, exec i s = .next t ∧ exec i { s with eng := { s.eng with err := b } } = .next u ∧
      ({ t.eng with err := true } : Engine) = { u.eng with err := true } ∧
      (s.eng.err = true → t.eng.err = true)

/-! ### What may change what -/

/-- R35, over all instructions: `BLK` changes only by host writes of block words and the commands `build_blocks` and
`expand_hex`; the state words only by host writes and `compress`; `LEN` only by the host, never by the engine; `STATUS.ERR`
only by `build_blocks` and the host's writes of `STATUS`. -/
def Obligations.OnlyTheNamedWritersChangeState : Prop :=
  ∀ (i : Instr) (s : State), ∃ t, exec i s = .next t ∧ t.pending = s.pending ∧
    (t.eng.blk ≠ s.eng.blk → i = .buildBlocks ∨ i = .expandHex ∨ (∃ j n v, i = .wrBlkw j n v) ∨
      i = .wrCmd 0x00000001 ∨ i = .wrCmd 0x00000003) ∧
    (t.eng.len ≠ s.eng.len → ∃ j v, i = .wrLen j v) ∧
    (∀ j : Lane, t.eng.quad j ≠ s.eng.quad j → i = .compress ∨ (∃ w v, i = .wrV j w v) ∨ i = .wrCmd 0x00000002) ∧
    (t.eng.err ≠ s.eng.err → i = .buildBlocks ∨ i = .wrCmd 0x00000001 ∨ ∃ v, i = .wrStatus v) ∧
    (t.reads ≠ s.reads → (∃ j n, i = .rdBlkw j n) ∨ (∃ j, i = .rdLen j) ∨ (∃ j w, i = .rdV j w) ∨
      (∃ j w, i = .rdP j w) ∨ i = .rdStatus)

/-- After `expand_hex`, a `build_blocks` with every `LEN[j]` = 32 rewrites the same trailer (R226, derived there). -/
def Obligations.RebuildOfExpandedBlockAtLength32 : Prop :=
  ∀ s : State, (∀ j : Lane, s.eng.len[j] = 32) →
    ∃ t, exec .expandHex s = .next t ∧ exec .buildBlocks t = .next t

/-! ### Reset -/

/-- After reset `STATUS.ERR` is 0 and nothing is in progress or pending (R36, R220): of the power-on state, and of the state
after a reset among the host's actions, which leaves the host's further actions and its record alone (log entry 13). Of
`BLK`, `LEN` and `VA..VD` nothing is said: they are free values (log entry 1). -/
def Obligations.ResetClearsErr : Prop :=
  State.reset.eng.err = false ∧ State.reset.pending = [] ∧
  ∀ (s : State) (rest : Script), s.pending = .reset :: rest →
    ∃ t, step s = .next t ∧ t.eng.err = false ∧ t.pending = rest ∧ t.reads = s.reads

/-! ### Invariants, runs, instances -/

/-- The premise of R232 is kept: while no error is recorded, every length is below 56, and the host issues neither a reset
nor a length of 56 or more, no step records an error. -/
def Obligations.ShortLengthsAreKept : Prop :=
  ∀ s t : State, ShortLengths s → step s = .next t → ShortLengths t

/-- `ERR` stays 0 as long as the host issues no `build_blocks`, whatever else it does, resets included (R27, R190). -/
def Obligations.NeverBuildsIsKept : Prop :=
  ∀ s t : State, NeverBuilds s → step s = .next t → NeverBuilds t

/-- The state after reset has no error recorded and no `build_blocks` pending. -/
def Obligations.NeverBuildsAtReset : Prop :=
  NeverBuilds State.reset

/-- A run never hangs: from any state, everything the host has issued is performed, and then nothing is in flight (R233,
R234). -/
def Obligations.EveryRunCompletes : Prop :=
  ∀ s : State, ∃ t, runPending s = .next t ∧ t.pending = []

/-- A script without reserved actions (R235, premise 4) has a meaning in the strict machine, and it is the machine's: from
any state with such a script pending, so in every defined run, the two runs agree after any number of steps, and none of
them is a refusal or a fault. The strict machine is the model's own (DESIGN CHOICE, log entry 6). -/
def Obligations.DefinedRunsAreNeverRefused : Prop :=
  ∀ (n : Nat) (s : State), (∀ x ∈ s.pending, reservedUse x = none) →
    ∃ t : State, Host.Core.run strictCore n s = .next t ∧ Host.Core.run Sys2Proof.core n s = .next t

/-- A step of one instance puts `step`'s next state at its position and leaves every other position as it was (R66, R205);
so steps of different instances commute. That instances step one at a time is the model's choice (DESIGN CHOICE, log entry
16). -/
def Obligations.StepOfOneInstanceLeavesTheOthers : Prop :=
  ∀ (p : Platform) (m : Nat),
    (∀ n, m ≠ n → (p.stepAt m)[n]? = p[n]? ∧ (p.stepAt m).stepAt n = (p.stepAt n).stepAt m) ∧
    ∀ s, p[m]? = some s → ∃ t, step s = .next t ∧ (p.stepAt m)[m]? = some t

/-- `setmsg j, msg` (R89, R53) puts a message of at most 55 bytes where `build_blocks` finds it, from any state; the other
lanes, the state words and `ERR` stay. -/
def Obligations.SetmsgPlacesTheMessage : Prop :=
  ∀ (s : State) (j : Lane) (msg : List Byte) (rest : Script), msg.length < 56 → s.pending = setmsg j msg ++ rest →
    ∃ t : State, Host.Core.run Sys2Proof.core (setmsg j msg).length s = .next t ∧ t.pending = rest ∧
      t.eng.len[j].toNat = msg.length ∧ t.eng.blk[j].toList.take msg.length = msg ∧
      (∀ l : Lane, l ≠ j → t.eng.blk[l] = s.eng.blk[l] ∧ t.eng.len[l] = s.eng.len[l]) ∧
      (∀ l : Lane, t.eng.quad l = s.eng.quad l) ∧ t.eng.err = s.eng.err ∧ t.reads = s.reads

/-- `hash` (R89, R111): with every length below 56, each lane ends with the compression of the built block of the message
that stood in it. -/
def Obligations.HashDigestsEveryLane : Prop :=
  ∀ (s : State) (rest : Script), (∀ j : Lane, s.eng.len[j].toNat < 56) → s.pending = hash ++ rest →
    ∃ t : State, Host.Core.run Sys2Proof.core 2 s = .next t ∧ t.pending = rest ∧ t.eng.err = s.eng.err ∧
      ∀ j : Lane, ∃ b, buildBlock (s.eng.blk[j].toList.take s.eng.len[j].toNat) = some b ∧
        t.eng.quad j = compress1 b

/-- `stretch n` (R89, R171): in every lane, `n` times over, the digest is replaced by the digest of its lowercase hex
string; `LEN` and `ERR` stay. -/
def Obligations.StretchIteratesTheDigest : Prop :=
  ∀ (n : Nat) (s : State) (rest : Script), s.pending = stretch n ++ rest →
    ∃ t : State, Host.Core.run Sys2Proof.core (2 * n) s = .next t ∧ t.pending = rest ∧ t.eng.len = s.eng.len ∧
      t.eng.err = s.eng.err ∧
      ∀ j : Lane, ∃ H : Nat → Quad, H 0 = s.eng.quad j ∧ t.eng.quad j = H n ∧
        ∀ k, k < n → ∃ b, buildBlock (hexString (H k)) = some b ∧ H (k + 1) = compress1 b

/-- The whole path, from any state and so from reset whatever its free values are (R111, R140, R222): eight messages of at
most 55 bytes placed by `setmsg` in the lanes' order, then `hash`, leave in every lane the compression of its message's
built block, and `ERR` as it was. -/
def Obligations.EightMessagesAreHashed : Prop :=
  ∀ (s : State) (msg : Lane → List Byte) (rest : Script), (∀ j, (msg j).length < 56) →
    s.pending = ((List.finRange 8).flatMap fun j => setmsg j (msg j)) ++ hash ++ rest →
    ∃ (n : Nat) (t : State), Host.Core.run Sys2Proof.core n s = .next t ∧ t.pending = rest ∧ t.eng.err = s.eng.err ∧
      ∀ j : Lane, ∃ b, buildBlock (msg j) = some b ∧ t.eng.quad j = compress1 b

/-! ### What is read and what is written -/

/-- The write footprints are right: each instruction completes and leaves every element outside its footprint as it was
(R35). The footprints are the operand lists of R103, R121, R168 and R55 to R62 as the model writes them out. -/
def Obligations.InstructionsWriteOnlyTheirFootprint : Prop :=
  ∀ (i : Instr) (s : State), ∃ t, exec i s = .next t ∧
    ∀ x : Element, s.eng.instrWrites i x = false → t.eng.sameAt s.eng x

/-- The read footprints are right: what an instruction writes, and where it writes it, depends only on what it reads, and
within a lane only on that lane's elements and the eight lengths (R81, R134). -/
def Obligations.WrittenElementsDependOnReadOnes : Prop :=
  ∀ (i : Instr) (lanes : Lane → Bool) (s s' : State),
    (∀ y : Element, s.eng.instrReads i y = true → concerns lanes y = true → s.eng.sameAt s'.eng y) →
    ∃ t t', exec i s = .next t ∧ exec i s' = .next t' ∧
      ∀ x : Element, concerns lanes x = true → s'.eng.instrWrites i x = s.eng.instrWrites i x ∧
        (s.eng.instrWrites i x = true → t.eng.sameAt t'.eng x)

/-- The premises of R235 are enough: in a defined run, what has been written and concerns the claim's lanes, and `ERR`, do
not depend on anything else. Two starts that agree on what is known there (just after reset: on `ERR` alone, whatever the
two resets left in the other elements) agree, after any number of steps of the same script, on all that has been written
by then. What counts as written is the model's choice (DESIGN CHOICE, log entry 17). -/
def Obligations.DefinedRunsDependOnWrittenElementsOnly : Prop :=
  ∀ (n : Nat) (lanes : Lane → Bool) (start : Start) (s s' : State), DefinedRun lanes start s → s'.pending = s.pending →
    AgreeOn lanes start.known s.eng s'.eng →
    ∃ t t' : State, Host.Core.run Sys2Proof.core n s = .next t ∧ Host.Core.run Sys2Proof.core n s' = .next t' ∧
      AgreeOn lanes (Written.afterSteps n start.known s) t.eng t'.eng
end

