-- ==== Sys2Proof/Laws/Bits.lean ====
section
/-! SUPPORT. The laws of byte order, rotation and byte swap (R8, R12, R13). -/

namespace Sys2Proof.Machine

theorem toNat_le32 (b0 b1 b2 b3 : Byte) :
    (le32 b0 b1 b2 b3).toNat = b0.toNat + 2 ^ 8 * b1.toNat + 2 ^ 16 * b2.toNat + 2 ^ 24 * b3.toNat := by
  have := b0.isLt; have := b1.isLt; have := b2.isLt; have := b3.isLt
  simp only [le32, BitVec.toNat_ofNat]
  omega

theorem toNat_byteOf (v : Word) (k : Nat) : (byteOf v k).toNat = v.toNat / 2 ^ (8 * k) % 256 := by
  simp [byteOf, BitVec.extractLsb'_toNat, Nat.shiftRight_eq_div_pow]

/-- R8: the four bytes of a word put together again are the word. -/
@[simp] theorem le32_byteOf (v : Word) : le32 (byteOf v 0) (byteOf v 1) (byteOf v 2) (byteOf v 3) = v := by
  apply BitVec.eq_of_toNat_eq
  have := v.isLt
  simp only [toNat_le32, toNat_byteOf]
  omega

theorem byteOf_le32 (b0 b1 b2 b3 : Byte) :
    byteOf (le32 b0 b1 b2 b3) 0 = b0 ∧ byteOf (le32 b0 b1 b2 b3) 1 = b1 ∧
      byteOf (le32 b0 b1 b2 b3) 2 = b2 ∧ byteOf (le32 b0 b1 b2 b3) 3 = b3 := by
  have := b0.isLt; have := b1.isLt; have := b2.isLt; have := b3.isLt
  refine ⟨?_, ?_, ?_, ?_⟩ <;> apply BitVec.eq_of_toNat_eq <;> simp only [toNat_le32, toNat_byteOf] <;> omega

/-- The formula of R12 is the rotation of the library for the amounts it is defined on. -/
theorem rotl32_eq_rotateLeft (x : Word) (n : Nat) (hn : 1 ≤ n ∧ n ≤ 31) : rotl32 x n = x.rotateLeft n := by
  have hx := x.isLt
  apply BitVec.eq_of_toNat_eq
  rw [BitVec.toNat_rotateLeft, Nat.mod_eq_of_lt (by omega : n < 32), Nat.shiftRight_eq_div_pow, Nat.shiftLeft_eq]
  have hp : (2 : Nat) ^ 32 = 2 ^ n * 2 ^ (32 - n) := by rw [← pow_add]; congr 1; omega
  have hlow : x.toNat / 2 ^ (32 - n) < 2 ^ n := by
    rw [Nat.div_lt_iff_lt_mul (by positivity)]; omega
  have hhigh : x.toNat * 2 ^ n % 2 ^ 32 = 2 ^ n * (x.toNat % 2 ^ (32 - n)) := by
    rw [hp, Nat.mul_comm x.toNat, Nat.mul_mod_mul_left]
  have hmod : x.toNat % 2 ^ (32 - n) < 2 ^ (32 - n) := Nat.mod_lt _ (by positivity)
  have hsum : 2 ^ n * (x.toNat % 2 ^ (32 - n)) + x.toNat / 2 ^ (32 - n) < 2 ^ 32 := by
    have := Nat.mul_le_mul_left (2 ^ n) hmod
    rw [hp]; rw [Nat.succ_eq_add_one, Nat.mul_add] at this; omega
  rw [rotl32, BitVec.toNat_ofNat, hhigh, Nat.mod_eq_of_lt hsum, Nat.two_pow_add_eq_or_of_lt hlow]

end Sys2Proof.Machine
end

