-- ==== Sys2Proof/Laws/Decode.lean ====
section
/-! SUPPORT. The register map read in both directions (R51), and what a successful decoding says of the encoding. -/

namespace Sys2Proof

@[simp] theorem wordSelOfBits_index (w : WordSel) : wordSelOfBits (BitVec.ofNat 2 (wordSelIndex w)) = w := by
  cases w <;> rfl

/-- The map of R51 and its reading back agree on every register. -/
theorem regAt_regOffset (r : Reg) : regAt (regOffset r) = .ok r := by
  cases r with
  | blkw j i => revert j i; decide
  | len j => revert j; decide
  | v j w => cases w <;> revert j <;> decide
  | p j w => cases w <;> revert j <;> decide
  | cmd => decide
  | status => decide

/-- Only the map's own offset of a register is read as that register (R51, R63): checked over all 4096 offsets. -/
theorem regOffset_of_regAt {off : BitVec 12} {r : Reg} (h : regAt off = .ok r) : regOffset r = off := by
  have all : ∀ off : BitVec 12,
      (match regAt off with
       | .ok r => regOffset r == off
       | .error _ => true) = true := by
    decide +kernel
  have here := all off
  rw [h] at here
  exact beq_iff_eq.1 here

/-- The whole of R82 and R86: 1, 2, 3 are the three operations, every other word is reserved. -/
theorem decodeCommand_cases (v : Word) :
    (v = 1 ∧ decodeCommand v = .ok .buildBlocks) ∨ (v = 2 ∧ decodeCommand v = .ok .compress) ∨
      (v = 3 ∧ decodeCommand v = .ok .expandHex) ∨
      (v ≠ 1 ∧ v ≠ 2 ∧ v ≠ 3 ∧ decodeCommand v = .error .reservedCommand) := by
  by_cases h1 : v = 1
  · subst h1; exact .inl ⟨rfl, rfl⟩
  by_cases h2 : v = 2
  · subst h2; exact .inr (.inl ⟨rfl, rfl⟩)
  by_cases h3 : v = 3
  · subst h3; exact .inr (.inr (.inl ⟨rfl, rfl⟩))
  have low (hx : v.extractLsb' 8 24 = 0) : v.toNat = (v.extractLsb' 0 8).toNat := by
    have := congrArg BitVec.toNat hx
    have := v.isLt
    simp only [BitVec.extractLsb'_toNat, Nat.shiftRight_eq_div_pow, BitVec.ofNat_eq_ofNat, BitVec.toNat_ofNat] at *
    omega
  refine .inr (.inr (.inr ⟨h1, h2, h3, ?_⟩))
  unfold decodeCommand
  split_ifs with a b c d <;> try rfl
  all_goals
    exfalso
    have hx := low (not_not.1 a)
    simp_all [BitVec.toNat_eq]

/-- A decoded access is 32 bits wide and at the offset of a register (R54, R63). -/
theorem decodeAccess_ok {a : Access} {i : Instr} (h : decodeAccess a = .ok i) :
    a.width = 32 ∧ ∃ r, regAt a.off = .ok r ∧
      (a.dir = .read ∧ decodeRead r = .ok i ∨ a.dir = .write ∧ decodeWrite a.data r = .ok i) := by
  unfold decodeAccess at h
  split at h
  · cases h
  · rename_i hw
    cases hr : regAt a.off with
    | error e => simp [hr] at h
    | ok r =>
      refine ⟨by simpa using hw, r, rfl, ?_⟩
      cases hd : a.dir <;> simp_all

end Sys2Proof
end

