-- ==== Sys2Proof/Laws/State.lean ====
section
/-! SUPPORT. One lemma per field per update of the state, each true by unfolding, so that no later proof unfolds a record
update. -/

namespace Sys2Proof.Machine

/-! ### The instance and its port -/

@[simp] theorem State.onEngine_eng (s : State) (f : Engine → Engine) : (s.onEngine f).eng = f s.eng := rfl
@[simp] theorem State.onEngine_pending (s : State) (f : Engine → Engine) : (s.onEngine f).pending = s.pending := rfl
@[simp] theorem State.onEngine_reads (s : State) (f : Engine → Engine) : (s.onEngine f).reads = s.reads := rfl
@[simp] theorem State.onEngine_draws (s : State) (f : Engine → Engine) : (s.onEngine f).draws = s.draws := rfl

@[simp] theorem State.deliver_eng (s : State) (v : Word) : (s.deliver v).eng = s.eng := rfl
@[simp] theorem State.deliver_pending (s : State) (v : Word) : (s.deliver v).pending = s.pending := rfl
@[simp] theorem State.deliver_reads (s : State) (v : Word) : (s.deliver v).reads = v :: s.reads := rfl
@[simp] theorem State.deliver_draws (s : State) (v : Word) : (s.deliver v).draws = s.draws := rfl

@[simp] theorem State.takeReset_eng (s : State) : s.takeReset.eng = Engine.afterReset s.draws := rfl
@[simp] theorem State.takeReset_pending (s : State) : s.takeReset.pending = s.pending := rfl
@[simp] theorem State.takeReset_reads (s : State) : s.takeReset.reads = s.reads := rfl
@[simp] theorem State.takeReset_draws (s : State) : s.takeReset.draws = s.draws + 1 := rfl

@[simp] theorem State.reservedAccess_eng (s : State) (d : Dir) : (s.reservedAccess d).eng = s.eng := by
  cases d <;> rfl
@[simp] theorem State.reservedAccess_pending (s : State) (d : Dir) : (s.reservedAccess d).pending = s.pending := by
  cases d <;> rfl

@[simp] theorem State.withFetchWord_eng (s : State) (nbits w : Nat) : (s.withFetchWord nbits w).eng = s.eng := rfl
@[simp] theorem State.withFetchWord_pending (s : State) (nbits w : Nat) :
    (s.withFetchWord nbits w).pending = .access (portAccess (tableEncoding nbits w)) :: s.pending := rfl
@[simp] theorem State.withFetchWord_reads (s : State) (nbits w : Nat) : (s.withFetchWord nbits w).reads = s.reads := rfl
@[simp] theorem State.withFetchWord_draws (s : State) (nbits w : Nat) : (s.withFetchWord nbits w).draws = s.draws := rfl

/-! ### The engine -/

@[simp] theorem Engine.afterReset_err (n : Nat) : (Engine.afterReset n).err = false := rfl

@[simp] theorem Engine.setBlkw_blk (e : Engine) (j : Lane) (i : Fin 16) (v : Word) :
    (e.setBlkw j i v).blk = e.blk.set j (setBlockWord (e.block j) i v) := rfl
@[simp] theorem Engine.setBlkw_len (e : Engine) (j : Lane) (i : Fin 16) (v : Word) : (e.setBlkw j i v).len = e.len := rfl
@[simp] theorem Engine.setBlkw_va (e : Engine) (j : Lane) (i : Fin 16) (v : Word) : (e.setBlkw j i v).va = e.va := rfl
@[simp] theorem Engine.setBlkw_vb (e : Engine) (j : Lane) (i : Fin 16) (v : Word) : (e.setBlkw j i v).vb = e.vb := rfl
@[simp] theorem Engine.setBlkw_vc (e : Engine) (j : Lane) (i : Fin 16) (v : Word) : (e.setBlkw j i v).vc = e.vc := rfl
@[simp] theorem Engine.setBlkw_vd (e : Engine) (j : Lane) (i : Fin 16) (v : Word) : (e.setBlkw j i v).vd = e.vd := rfl
@[simp] theorem Engine.setBlkw_err (e : Engine) (j : Lane) (i : Fin 16) (v : Word) : (e.setBlkw j i v).err = e.err := rfl

@[simp] theorem Engine.setLen_blk (e : Engine) (j : Lane) (v : Word) : (e.setLen j v).blk = e.blk := rfl
@[simp] theorem Engine.setLen_len (e : Engine) (j : Lane) (v : Word) : (e.setLen j v).len = e.len.set j v := rfl
@[simp] theorem Engine.setLen_va (e : Engine) (j : Lane) (v : Word) : (e.setLen j v).va = e.va := rfl
@[simp] theorem Engine.setLen_vb (e : Engine) (j : Lane) (v : Word) : (e.setLen j v).vb = e.vb := rfl
@[simp] theorem Engine.setLen_vc (e : Engine) (j : Lane) (v : Word) : (e.setLen j v).vc = e.vc := rfl
@[simp] theorem Engine.setLen_vd (e : Engine) (j : Lane) (v : Word) : (e.setLen j v).vd = e.vd := rfl
@[simp] theorem Engine.setLen_err (e : Engine) (j : Lane) (v : Word) : (e.setLen j v).err = e.err := rfl

@[simp] theorem Engine.setWord_blk (e : Engine) (j : Lane) (w : WordSel) (v : Word) : (e.setWord j w v).blk = e.blk := by
  cases w <;> rfl
@[simp] theorem Engine.setWord_len (e : Engine) (j : Lane) (w : WordSel) (v : Word) : (e.setWord j w v).len = e.len := by
  cases w <;> rfl
@[simp] theorem Engine.setWord_err (e : Engine) (j : Lane) (w : WordSel) (v : Word) : (e.setWord j w v).err = e.err := by
  cases w <;> rfl

@[simp] theorem Engine.setBlocks_blk (e : Engine) (f : Lane → Block) : (e.setBlocks f).blk = Vector.ofFn f := rfl
@[simp] theorem Engine.setBlocks_len (e : Engine) (f : Lane → Block) : (e.setBlocks f).len = e.len := rfl
@[simp] theorem Engine.setBlocks_va (e : Engine) (f : Lane → Block) : (e.setBlocks f).va = e.va := rfl
@[simp] theorem Engine.setBlocks_vb (e : Engine) (f : Lane → Block) : (e.setBlocks f).vb = e.vb := rfl
@[simp] theorem Engine.setBlocks_vc (e : Engine) (f : Lane → Block) : (e.setBlocks f).vc = e.vc := rfl
@[simp] theorem Engine.setBlocks_vd (e : Engine) (f : Lane → Block) : (e.setBlocks f).vd = e.vd := rfl
@[simp] theorem Engine.setBlocks_err (e : Engine) (f : Lane → Block) : (e.setBlocks f).err = e.err := rfl

@[simp] theorem Engine.setQuads_blk (e : Engine) (f : Lane → Quad) : (e.setQuads f).blk = e.blk := rfl
@[simp] theorem Engine.setQuads_len (e : Engine) (f : Lane → Quad) : (e.setQuads f).len = e.len := rfl
@[simp] theorem Engine.setQuads_err (e : Engine) (f : Lane → Quad) : (e.setQuads f).err = e.err := rfl

@[simp] theorem Engine.raiseInputTooLong_blk (e : Engine) : e.raiseInputTooLong.blk = e.blk := rfl
@[simp] theorem Engine.raiseInputTooLong_len (e : Engine) : e.raiseInputTooLong.len = e.len := rfl
@[simp] theorem Engine.raiseInputTooLong_va (e : Engine) : e.raiseInputTooLong.va = e.va := rfl
@[simp] theorem Engine.raiseInputTooLong_vb (e : Engine) : e.raiseInputTooLong.vb = e.vb := rfl
@[simp] theorem Engine.raiseInputTooLong_vc (e : Engine) : e.raiseInputTooLong.vc = e.vc := rfl
@[simp] theorem Engine.raiseInputTooLong_vd (e : Engine) : e.raiseInputTooLong.vd = e.vd := rfl
@[simp] theorem Engine.raiseInputTooLong_err (e : Engine) : e.raiseInputTooLong.err = true := rfl

@[simp] theorem Engine.acknowledgeError_blk (e : Engine) : e.acknowledgeError.blk = e.blk := rfl
@[simp] theorem Engine.acknowledgeError_len (e : Engine) : e.acknowledgeError.len = e.len := rfl
@[simp] theorem Engine.acknowledgeError_va (e : Engine) : e.acknowledgeError.va = e.va := rfl
@[simp] theorem Engine.acknowledgeError_vb (e : Engine) : e.acknowledgeError.vb = e.vb := rfl
@[simp] theorem Engine.acknowledgeError_vc (e : Engine) : e.acknowledgeError.vc = e.vc := rfl
@[simp] theorem Engine.acknowledgeError_vd (e : Engine) : e.acknowledgeError.vd = e.vd := rfl
@[simp] theorem Engine.acknowledgeError_err (e : Engine) : e.acknowledgeError.err = false := rfl

end Sys2Proof.Machine
end

