-- ==== Sys2Proof/Laws/Ops.lean ====
section
/-! SUPPORT. What each shared operation leaves behind, read through the accessors: read after write, and the lanes, words
and bytes that a write leaves alone. -/

namespace Sys2Proof.Machine

/-! ### Blocks -/

theorem setBlockWord_get (b : Block) (i : Fin 16) (v : Word) (k : Fin 64) :
    (setBlockWord b i v)[k] = if k.val / 4 = i.val then byteOf v (k.val % 4) else b[k] := by
  simp [setBlockWord]

@[simp] theorem blockWord_setBlockWord (b : Block) (i n : Fin 16) (v : Word) :
    blockWord (setBlockWord b i v) n = if n = i then v else blockWord b n := by
  have hn := n.isLt
  have g (k : Nat) (hk : k < 64) : (setBlockWord b i v)[k] = if k / 4 = i.val then byteOf v (k % 4) else b[k] :=
    setBlockWord_get b i v ⟨k, hk⟩
  simp only [blockWord]
  rw [g _ (by omega), g _ (by omega), g _ (by omega), g _ (by omega)]
  by_cases h : n = i
  · subst h
    rw [if_pos (by omega), if_pos (by omega), if_pos (by omega), if_pos (by omega), if_pos rfl]
    rw [show 4 * n.val % 4 = 0 by omega, show (4 * n.val + 1) % 4 = 1 by omega, show (4 * n.val + 2) % 4 = 2 by omega,
      show (4 * n.val + 3) % 4 = 3 by omega, le32_byteOf]
  · have hne : n.val ≠ i.val := fun e => h (Fin.ext e)
    rw [if_neg (by omega), if_neg (by omega), if_neg (by omega), if_neg (by omega), if_neg h]

@[simp] theorem Engine.block_setBlkw (e : Engine) (j l : Lane) (i : Fin 16) (v : Word) :
    (e.setBlkw j i v).block l = if l = j then setBlockWord (e.block j) i v else e.block l := by
  simp only [Engine.block, Engine.setBlkw_blk, Fin.getElem_fin, Vector.getElem_set, Fin.ext_iff, eq_comm]

@[simp] theorem Engine.block_setLen (e : Engine) (j l : Lane) (v : Word) : (e.setLen j v).block l = e.block l := rfl

@[simp] theorem Engine.block_setWord (e : Engine) (j l : Lane) (w : WordSel) (v : Word) :
    (e.setWord j w v).block l = e.block l := by
  cases w <;> rfl

@[simp] theorem Engine.block_setBlocks (e : Engine) (f : Lane → Block) (l : Lane) : (e.setBlocks f).block l = f l := by
  simp [Engine.block]

@[simp] theorem Engine.block_setQuads (e : Engine) (f : Lane → Quad) (l : Lane) :
    (e.setQuads f).block l = e.block l := rfl

/-! ### State words -/

@[simp] theorem Engine.quad_setBlkw (e : Engine) (j l : Lane) (i : Fin 16) (v : Word) :
    (e.setBlkw j i v).quad l = e.quad l := rfl

@[simp] theorem Engine.quad_setLen (e : Engine) (j l : Lane) (v : Word) : (e.setLen j v).quad l = e.quad l := rfl

@[simp] theorem Engine.quad_setBlocks (e : Engine) (f : Lane → Block) (l : Lane) :
    (e.setBlocks f).quad l = e.quad l := rfl

@[simp] theorem Engine.quad_setQuads (e : Engine) (f : Lane → Quad) (l : Lane) : (e.setQuads f).quad l = f l := by
  simp [Engine.quad, Engine.setQuads]

theorem Engine.quadWord_setWord (e : Engine) (j l : Lane) (w u : WordSel) (v : Word) :
    quadWord ((e.setWord j w v).quad l) u = if l = j ∧ u = w then v else quadWord (e.quad l) u := by
  cases w <;> cases u <;>
    simp only [Engine.quad, Engine.setWord, quadWord, Fin.getElem_fin, Vector.getElem_set, Fin.ext_iff, eq_comm,
      and_true, and_false, if_false, reduceCtorEq]

/-! ### Lengths -/

theorem Engine.getElem_setLen (e : Engine) (j l : Lane) (v : Word) :
    (e.setLen j v).len[l] = if l = j then v else e.len[l] := by
  simp only [Engine.setLen_len, Fin.getElem_fin, Vector.getElem_set, Fin.ext_iff, eq_comm]

/-! ### Reserved accesses and the status register -/

@[simp] theorem State.reservedAccess_write (s : State) : s.reservedAccess .write = s := rfl

theorem State.reservedAccess_read (s : State) :
    s.reservedAccess .read = { s with reads := Config.reservedRead s.draws :: s.reads, draws := s.draws + 1 } := rfl

end Sys2Proof.Machine
end

