-- ==== Sys2Proof/Laws/Commands.lean ====
section
/-! SUPPORT. One spec lemma per command: everything `build_blocks`, `compress`, `expand_hex` and a write to `CMD` can do to
the engine, read through the accessors. -/

namespace Sys2Proof.Machine

/-- R102: the check of `build_blocks` finds a lane of 56 bytes or more. -/
theorem Engine.someTooLong_iff (e : Engine) : e.someTooLong = true ↔ ∃ j : Lane, 56 ≤ e.length j := by
  simp only [Engine.someTooLong, List.any_eq_true, List.mem_finRange, true_and, decide_eq_true_eq]
  rfl

theorem Engine.someTooLong_eq_false_iff (e : Engine) : e.someTooLong = false ↔ ∀ j : Lane, e.length j < 56 := by
  rw [← Bool.not_eq_true, Engine.someTooLong_iff]
  push Not
  rfl

/-- R103, success. -/
theorem Engine.buildAll_of_short {e : Engine} (h : ∀ j : Lane, e.length j < 56) :
    e.buildAll = e.setBlocks fun j => padInPlace (e.block j) (e.length j) := by
  simp [Engine.buildAll, e.someTooLong_eq_false_iff.2 h]

/-- R103, failure (R107). -/
theorem Engine.buildAll_of_long {e : Engine} {j : Lane} (h : 56 ≤ e.length j) : e.buildAll = e.raiseInputTooLong := by
  simp [Engine.buildAll, e.someTooLong_iff.2 ⟨j, h⟩]

/-- All that `build_blocks` can do (R103, R107). -/
theorem Engine.buildAll_cases (e : Engine) :
    (∃ j : Lane, 56 ≤ e.length j) ∧ e.buildAll = e.raiseInputTooLong ∨
      (∀ j : Lane, e.length j < 56) ∧ e.buildAll = e.setBlocks fun j => padInPlace (e.block j) (e.length j) := by
  by_cases h : ∃ j : Lane, 56 ≤ e.length j
  · exact .inl ⟨h, Engine.buildAll_of_long h.choose_spec⟩
  · push Not at h
    exact .inr ⟨h, Engine.buildAll_of_short h⟩

@[simp] theorem Engine.buildAll_len (e : Engine) : e.buildAll.len = e.len := by
  obtain ⟨-, h⟩ | ⟨-, h⟩ := e.buildAll_cases <;> simp [h]

@[simp] theorem Engine.quad_buildAll (e : Engine) (l : Lane) : e.buildAll.quad l = e.quad l := by
  obtain ⟨-, h⟩ | ⟨-, h⟩ := e.buildAll_cases <;> rw [h] <;> rfl

/-- Byte `k` of a padded block (R106). -/
theorem padInPlace_get (b : Block) (L : Nat) (k : Fin 64) :
    (padInPlace b L)[k] = if k.val < L then b[k] else padByte L k := by
  simp [padInPlace]

/-- R121, R137. -/
@[simp] theorem Engine.quad_compressAll (e : Engine) (l : Lane) : e.compressAll.quad l = compress1 (e.block l) := by
  simp [Engine.compressAll]

@[simp] theorem Engine.block_compressAll (e : Engine) (l : Lane) : e.compressAll.block l = e.block l := rfl
@[simp] theorem Engine.compressAll_blk (e : Engine) : e.compressAll.blk = e.blk := rfl
@[simp] theorem Engine.compressAll_len (e : Engine) : e.compressAll.len = e.len := rfl
@[simp] theorem Engine.compressAll_err (e : Engine) : e.compressAll.err = e.err := rfl

/-- R168, R172. -/
@[simp] theorem Engine.block_expandAll (e : Engine) (l : Lane) : e.expandAll.block l = hexExpand (e.quad l) := by
  simp [Engine.expandAll]

@[simp] theorem Engine.quad_expandAll (e : Engine) (l : Lane) : e.expandAll.quad l = e.quad l := rfl
@[simp] theorem Engine.expandAll_len (e : Engine) : e.expandAll.len = e.len := rfl
@[simp] theorem Engine.expandAll_err (e : Engine) : e.expandAll.err = e.err := rfl

/-- R62. -/
theorem Engine.writeStatus_err (e : Engine) (v : Word) : (e.writeStatus v).err = (e.err && !v.getLsbD 0) := by
  unfold Engine.writeStatus
  cases h : v.getLsbD 0 <;> simp

@[simp] theorem Engine.writeStatus_blk (e : Engine) (v : Word) : (e.writeStatus v).blk = e.blk := by
  unfold Engine.writeStatus; split <;> rfl
@[simp] theorem Engine.writeStatus_len (e : Engine) (v : Word) : (e.writeStatus v).len = e.len := by
  unfold Engine.writeStatus; split <;> rfl
@[simp] theorem Engine.quad_writeStatus (e : Engine) (v : Word) (l : Lane) : (e.writeStatus v).quad l = e.quad l := by
  unfold Engine.writeStatus; split <;> rfl

/-- All that a command word can do (R82, R86). -/
theorem Engine.command_cases (e : Engine) (v : Word) :
    (v = 1 ∧ Engine.command v e = e.buildAll) ∨ (v = 2 ∧ Engine.command v e = e.compressAll) ∨
      (v = 3 ∧ Engine.command v e = e.expandAll) ∨ (v ≠ 1 ∧ v ≠ 2 ∧ v ≠ 3 ∧ Engine.command v e = e) := by
  obtain ⟨h, hd⟩ | ⟨h, hd⟩ | ⟨h, hd⟩ | ⟨h1, h2, h3, hd⟩ := decodeCommand_cases v
  · exact .inl ⟨h, by simp [Engine.command, hd]⟩
  · exact .inr (.inl ⟨h, by simp [Engine.command, hd]⟩)
  · exact .inr (.inr (.inl ⟨h, by simp [Engine.command, hd]⟩))
  · exact .inr (.inr (.inr ⟨h1, h2, h3, by simp [Engine.command, hd]⟩))

end Sys2Proof.Machine
end

