-- ==== Sys2Proof/Laws/Step.lean ====
section
/-! SUPPORT. Each instruction's meaning as one equation; what a step can do, said once; and runs cut in two. -/

namespace Sys2Proof.Machine

@[simp] theorem exec_buildBlocks (s : State) : exec .buildBlocks s = .next (s.onEngine Engine.buildAll) := rfl
@[simp] theorem exec_compress (s : State) : exec .compress s = .next (s.onEngine Engine.compressAll) := rfl
@[simp] theorem exec_expandHex (s : State) : exec .expandHex s = .next (s.onEngine Engine.expandAll) := rfl
@[simp] theorem exec_rdBlkw (j : Lane) (n : Fin 16) (s : State) :
    exec (.rdBlkw j n) s = .next (s.deliver (s.eng.blkw j n)) := rfl
@[simp] theorem exec_wrBlkw (j : Lane) (n : Fin 16) (v : Word) (s : State) :
    exec (.wrBlkw j n v) s = .next (s.onEngine fun e => e.setBlkw j n v) := rfl
@[simp] theorem exec_rdLen (j : Lane) (s : State) : exec (.rdLen j) s = .next (s.deliver s.eng.len[j]) := rfl
@[simp] theorem exec_wrLen (j : Lane) (v : Word) (s : State) :
    exec (.wrLen j v) s = .next (s.onEngine fun e => e.setLen j v) := rfl
@[simp] theorem exec_rdV (j : Lane) (w : WordSel) (s : State) :
    exec (.rdV j w) s = .next (s.deliver (s.eng.word j w)) := rfl
@[simp] theorem exec_wrV (j : Lane) (w : WordSel) (v : Word) (s : State) :
    exec (.wrV j w v) s = .next (s.onEngine fun e => e.setWord j w v) := rfl
@[simp] theorem exec_rdP (j : Lane) (w : WordSel) (s : State) :
    exec (.rdP j w) s = .next (s.deliver (s.eng.presented j w)) := rfl
@[simp] theorem exec_wrCmd (v : Word) (s : State) : exec (.wrCmd v) s = .next (s.onEngine (Engine.command v)) := rfl
@[simp] theorem exec_rdStatus (s : State) : exec .rdStatus s = .next (s.deliver s.eng.statusWord) := rfl
@[simp] theorem exec_wrStatus (v : Word) (s : State) :
    exec (.wrStatus v) s = .next (s.onEngine fun e => e.writeStatus v) := rfl

/-- Every instruction completes; it touches nothing of the host's further actions and draws nothing (R192, R233). -/
theorem exec_completes (i : Instr) (s : State) :
    ∃ t, exec i s = .next t ∧ t.pending = s.pending ∧ t.draws = s.draws := by
  cases i <;> exact ⟨_, rfl, rfl, rfl⟩

theorem step_of_idle {s : State} (h : s.pending = []) : step s = .next s := by
  simp [step, h]

theorem step_of_reset {s : State} {rest : Script} (h : s.pending = .reset :: rest) :
    step s = .next ({ s with pending := rest }).takeReset := by
  simp [step, h]

theorem step_of_ok {s : State} {a : Access} {rest : Script} {i : Instr} (h : s.pending = .access a :: rest)
    (hd : decodeAccess a = .ok i) : step s = exec i { s with pending := rest } := by
  simp [step, h, decode, hd]

theorem step_of_error {s : State} {a : Access} {rest : Script} {e : DecodeError} (h : s.pending = .access a :: rest)
    (hd : decodeAccess a = .error e) :
    step s = .next (({ s with pending := rest }).reservedAccess a.dir) := by
  simp [step, h, decode, hd]

/-- Everything a step can do, in four cases. -/
theorem step_cases (s : State) :
    (s.pending = [] ∧ step s = .next s) ∨
      (∃ rest, s.pending = .reset :: rest ∧ step s = .next ({ s with pending := rest }).takeReset) ∨
      (∃ a rest i, s.pending = .access a :: rest ∧ decodeAccess a = .ok i ∧
        step s = exec i { s with pending := rest }) ∨
      (∃ a rest e, s.pending = .access a :: rest ∧ decodeAccess a = .error e ∧
        step s = .next (({ s with pending := rest }).reservedAccess a.dir)) := by
  match h : s.pending with
  | [] => exact .inl ⟨rfl, step_of_idle h⟩
  | .reset :: rest => exact .inr (.inl ⟨rest, rfl, step_of_reset h⟩)
  | .access a :: rest =>
    cases hd : decodeAccess a with
    | ok i => exact .inr (.inr (.inl ⟨a, rest, i, rfl, hd, step_of_ok h hd⟩))
    | error e => exact .inr (.inr (.inr ⟨a, rest, e, rfl, hd, step_of_error h hd⟩))

/-- A step always goes on, and performs the oldest pending action, if there is one (R65, R234). -/
theorem step_progress (s : State) : ∃ t, step s = .next t ∧ t.pending = s.pending.tail := by
  obtain ⟨h, hs⟩ | ⟨rest, h, hs⟩ | ⟨a, rest, i, h, -, hs⟩ | ⟨a, rest, e, h, -, hs⟩ := step_cases s
  · exact ⟨s, hs, by simp [h]⟩
  · exact ⟨_, hs, by simp [h]⟩
  · obtain ⟨t, ht, hp, -⟩ := exec_completes i { s with pending := rest }
    exact ⟨t, hs.trans ht, by simp [hp, h]⟩
  · exact ⟨_, hs, by simp [h]⟩

/-- A run of `m + n` steps is a run of `m` steps and then one of `n`. -/
theorem run_add {s t : State} {m : Nat} (n : Nat) (h : Host.Core.run Sys2Proof.core m s = .next t) :
    Host.Core.run Sys2Proof.core (m + n) s = Host.Core.run Sys2Proof.core n t := by
  induction m generalizing s with
  | zero =>
    injection h with h
    rw [h, Nat.zero_add]
  | succ m ih =>
    obtain ⟨u, hu, -⟩ := step_progress s
    have hu' : Sys2Proof.core.step s = .next u := hu
    rw [Nat.succ_add]
    simp only [Host.Core.run, hu'] at h ⊢
    exact ih h

theorem run_one {s t : State} (h : step s = .next t) : Host.Core.run Sys2Proof.core 1 s = .next t := by
  have h' : Sys2Proof.core.step s = .next t := h
  simp [Host.Core.run, h']

end Sys2Proof.Machine
end

