-- ==== Sys2Proof/Laws/Footprint.lean ====
section
/-! SUPPORT. The small lemmas of the footprints: the list of elements is complete, agreement at an element is an
equivalence, and the two walks along a run, unfolded once. -/

namespace Sys2Proof.Machine

theorem Element.mem_all (x : Element) : x ∈ Element.all := by
  simp only [Element.all, List.mem_flatMap, List.mem_finRange, true_and]
  cases x with
  | byte j k => exact ⟨j, by simp⟩
  | len j => exact ⟨j, by simp⟩
  | word j w => exact ⟨j, by cases w <;> simp⟩

@[simp] theorem Engine.sameAt_refl (e : Engine) (x : Element) : e.sameAt e x := by
  cases x <;> rfl

theorem Engine.sameAt_symm {e e' : Engine} {x : Element} (h : e.sameAt e' x) : e'.sameAt e x := by
  cases x <;> exact Eq.symm h

theorem Engine.sameAt_trans {e e' e'' : Engine} {x : Element} (h : e.sameAt e' x) (h' : e'.sameAt e'' x) :
    e.sameAt e'' x := by
  cases x <;> exact Eq.trans h h'

/-- What a command word written to `CMD` reads: the cases of its decoding (R82, R86). -/
theorem Engine.instrReads_wrCmd (e : Engine) (v : Word) (x : Element) :
    e.instrReads (.wrCmd v) x = match decodeCommand v with
      | .ok c => e.instrReads (commandInstr c) x
      | .error _ => false := by
  simp only [Engine.instrReads]
  rcases decodeCommand v with _ | c
  · rfl
  · cases c <;> rfl

theorem Engine.instrWrites_wrCmd (e : Engine) (v : Word) (x : Element) :
    e.instrWrites (.wrCmd v) x = match decodeCommand v with
      | .ok c => e.instrWrites (commandInstr c) x
      | .error _ => false := by
  simp only [Engine.instrWrites]
  rcases decodeCommand v with _ | c
  · rfl
  · cases c <;> rfl

/-! ### Along a run -/

theorem Written.afterSteps_of_idle {s : State} (h : s.pending = []) (n : Nat) (given : Written) :
    Written.afterSteps n given s = given := by
  cases n with
  | zero => rfl
  | succ n => simp [Written.afterSteps, h]

theorem Written.afterSteps_of_step {s t : State} {x : HostAction} {rest : Script} (h : s.pending = x :: rest)
    (hs : step s = .next t) (n : Nat) (given : Written) :
    Written.afterSteps (n + 1) given s = Written.afterSteps n (given.after s.eng x) t := by
  simp [Written.afterSteps, h, hs]

theorem Written.throughout_of_step {ok : Written → Engine → HostAction → Bool} {s t : State} {x : HostAction}
    {rest : Script} (h : s.pending = x :: rest) (hs : step s = .next t) (n : Nat) (given : Written) :
    Written.throughout ok (n + 1) given s = true ↔
      ok given s.eng x = true ∧ Written.throughout ok n (given.after s.eng x) t = true := by
  simp [Written.throughout, h, hs]

end Sys2Proof.Machine

namespace Sys2Proof.Safety

open Sys2Proof.Machine

/-- `readsAreWritten` of a decoded access, as a statement about elements. -/
theorem readsAreWritten_iff {lanes : Lane → Bool} {given : Written} {e : Engine} {a : Access} {i : Instr}
    (h : decode (.access a) = .ok i) :
    readsAreWritten lanes given e (.access a) = true ↔
      ∀ x : Element, e.instrReads i x = true → concerns lanes x = true → given x = true := by
  simp only [readsAreWritten, h, List.all_eq_true, Bool.or_eq_true, Bool.not_eq_true', Bool.and_eq_false_iff]
  refine ⟨fun H x hr hc => ?_, fun H x _ => ?_⟩
  · have := H x x.mem_all
    simp_all
  · cases hr : e.instrReads i x <;> cases hc : concerns lanes x <;> simp_all

end Sys2Proof.Safety
end

