-- ==== Sys2Proof/Laws/PerInstr.lean ====
section
/-! SUPPORT. A statement about every instruction as syntax, one lemma per constructor: its encoding belongs to its row of
the opcode table, and an encoding that is an access has the form of R54. -/

namespace Sys2Proof.Laws.EncodingInTable

/-- The encoding of `i` belongs to the row of `i`, the row is one of the table's, and the access that carries the encoding
to the engine is 32 bits wide and aligned (R51, R54, R83 to R85). -/
def Statement (i : Instr) : Prop :=
  rowMatches (opcodeRow i) (encode i) = true ∧ opcodeRow i ∈ opcodeTable ∧ (portAccess (encode i)).wf = true

theorem buildBlocks : Statement .buildBlocks := by unfold Statement; decide
theorem compress : Statement .compress := by unfold Statement; decide
theorem expandHex : Statement .expandHex := by unfold Statement; decide

theorem rdBlkw (j : Lane) (i : Fin 16) : Statement (.rdBlkw j i) := by
  revert j i; unfold Statement; decide

/-- The data of a write play no part in the statement, so it is enough to look at data 0. -/
theorem wrBlkw (j : Lane) (i : Fin 16) (value : Word) : Statement (.wrBlkw j i value) :=
  (by revert j i; unfold Statement; decide : Statement (.wrBlkw j i 0))

theorem rdLen (j : Lane) : Statement (.rdLen j) := by
  revert j; unfold Statement; decide

theorem wrLen (j : Lane) (value : Word) : Statement (.wrLen j value) :=
  (by revert j; unfold Statement; decide : Statement (.wrLen j 0))

theorem rdV (j : Lane) (w : WordSel) : Statement (.rdV j w) := by
  cases w <;> revert j <;> unfold Statement <;> decide

theorem wrV (j : Lane) (w : WordSel) (value : Word) : Statement (.wrV j w value) :=
  (by cases w <;> revert j <;> unfold Statement <;> decide : Statement (.wrV j w 0))

theorem rdP (j : Lane) (w : WordSel) : Statement (.rdP j w) := by
  cases w <;> revert j <;> unfold Statement <;> decide

theorem wrCmd (value : Word) : Statement (.wrCmd value) :=
  (by unfold Statement; decide : Statement (.wrCmd 0))

theorem rdStatus : Statement .rdStatus := by unfold Statement; decide

theorem wrStatus (value : Word) : Statement (.wrStatus value) :=
  (by unfold Statement; decide : Statement (.wrStatus 0))

end Sys2Proof.Laws.EncodingInTable
end

