-- ==== Sys2Proof/Tests/Slice0.lean ====
section
/-! SUPPORT. Tests with results taken from the spec (`95_test_vectors.md` where not said otherwise), the smoke tests of
well-formedness, and, for every statement that has hypotheses, a state and operands that meet them. -/

namespace Sys2Proof.Tests

open Sys2Proof.Machine Sys2Proof.Safety

/-! ### A small state -/

/-- Every lane: `fill` in all 64 bytes, length `L`, words 0x10000000, 0xF0, 0, 1. -/
def engineOf (fill : Byte) (L : Word) (err : Bool) : Engine where
  blk := Vector.replicate 8 (Vector.replicate 64 fill)
  len := Vector.replicate 8 L
  va := Vector.replicate 8 0x10000000
  vb := Vector.replicate 8 0xF0
  vc := Vector.replicate 8 0
  vd := Vector.replicate 8 1
  err := err

def stateOf (e : Engine) (pending : Script) : State := ⟨e, pending, [], 1⟩

/-- An engine with `err` clear and one lane's length put in. -/
def withLength (j : Lane) (L : Word) : Engine := (engineOf 0xA5 0 false).setLen j L

/-- The engine after an instruction (the same engine where it stops, which none does). -/
def after (i : Instr) (e : Engine) : Engine :=
  match exec i (stateOf e []) with
  | .next t => t.eng
  | .fault _ => e
  | .refused _ => e

/-- What an instruction returns to the host. -/
def returned (i : Instr) (e : Engine) : List Word :=
  match exec i (stateOf e []) with
  | .next t => t.reads
  | .fault _ => []
  | .refused _ => []

/-! ### Decoding: a word of every constructor, written out from R51 and R82 -/

theorem test_decode_commands :
    decode (.command 0b00000000000000000000000000000001) = .ok .buildBlocks ∧
    decode (.command 0b00000000000000000000000000000010) = .ok .compress ∧
    decode (.command 0b00000000000000000000000000000011) = .ok .expandHex := by decide

theorem test_decode_reserved_commands :
    decode (.command 0x00000000) = .error .reservedCommand ∧ decode (.command 0x00000004) = .error .reservedCommand ∧
    decode (.command 0x00000101) = .error .reservedCommand := by decide

/-- Offsets as bits: `off[8:6]` = j, `off[5:2]` = i for `BLKW`. -/
theorem test_decode_blkw :
    decode (.access ⟨.read, 32, 0b000011000100, 0⟩) = .ok (.rdBlkw 3 1) ∧
    decode (.access ⟨.write, 32, 0b000111111100, 0x11223344⟩) = .ok (.wrBlkw 7 15 0x11223344) := by decide

theorem test_decode_len :
    decode (.access ⟨.read, 32, 0b001000011100, 0⟩) = .ok (.rdLen 7) ∧
    decode (.access ⟨.write, 32, 0b001000000100, 55⟩) = .ok (.wrLen 1 55) := by decide

theorem test_decode_raw_and_presented :
    decode (.access ⟨.read, 32, 0b001010111000, 0⟩) = .ok (.rdV 3 .c) ∧
    decode (.access ⟨.write, 32, 0b001011111100, 9⟩) = .ok (.wrV 7 .d 9) ∧
    decode (.access ⟨.read, 32, 0b001100111000, 0⟩) = .ok (.rdP 3 .c) := by decide

theorem test_decode_cmd_and_status :
    decode (.access ⟨.write, 32, 0b001110000000, 2⟩) = .ok (.wrCmd 2) ∧
    decode (.access ⟨.read, 32, 0b001110000100, 0⟩) = .ok .rdStatus ∧
    decode (.access ⟨.write, 32, 0b001110000100, 1⟩) = .ok (.wrStatus 1) := by decide

/-- The reserved accesses of the spec's list, each by its name. -/
theorem test_decode_reserved_accesses :
    decode (.access ⟨.write, 32, 0x300, 0⟩) = .error .readOnlyView ∧
    decode (.access ⟨.read, 32, 0x380, 0⟩) = .error .writeOnlyPort ∧
    decode (.access ⟨.read, 32, 0x220, 0⟩) = .error .reservedOffset ∧
    decode (.access ⟨.write, 32, 0x388, 0⟩) = .error .reservedOffset ∧
    decode (.access ⟨.read, 32, 0x002, 0⟩) = .error .misaligned ∧
    decode (.access ⟨.write, 8, 0x000, 0⟩) = .error .badWidth := by decide

/-- The table's own bit numbering, every row; bit 12 marks a write where a read would also have a meaning. -/
theorem test_decode_table_words :
    decodeTableWord 32 0x00000001 = some .buildBlocks ∧ decodeTableWord 32 0x00000002 = some .compress ∧
    decodeTableWord 32 0x00000003 = some .expandHex ∧ decodeTableWord 16 0x0C4 = some (.rdBlkw 3 1) ∧
    decodeTableWord 16 0x10C4 = some (.wrBlkw 3 1 0) ∧ decodeTableWord 16 0x21C = some (.rdLen 7) ∧
    decodeTableWord 16 0x121C = some (.wrLen 7 0) ∧ decodeTableWord 16 0x2B8 = some (.rdV 3 .c) ∧
    decodeTableWord 16 0x12B8 = some (.wrV 3 .c 0) ∧ decodeTableWord 16 0x338 = some (.rdP 3 .c) ∧
    decodeTableWord 16 0x380 = some (.wrCmd 0) ∧ decodeTableWord 16 0x384 = some .rdStatus ∧
    decodeTableWord 16 0x1384 = some (.wrStatus 0) ∧ decodeTableWord 16 0x220 = none ∧
    decodeTableWord 32 0x00000004 = none := by decide

/-- A command word and an access run as the first instruction after reset, whatever the free values are. -/
theorem test_first_instruction_after_reset :
    (∃ t, step (State.reset.withFetchWord 32 1) = .next t ∧ t.pending = []) ∧
    (∃ t, step (State.reset.withFetchWord 16 0x380) = .next t ∧ t.eng = State.reset.eng) ∧
    ∃ t, step (State.reset.withFetchWord 16 0x384) = .next t ∧ t.reads = [0] :=
  ⟨⟨_, rfl, rfl⟩, ⟨_, rfl, rfl⟩, ⟨_, rfl, rfl⟩⟩

/-! ### Well-formedness: one ill-formed term for each check -/

theorem test_wf_refuses_width : (⟨.read, 8, 0x000, 0⟩ : Access).wf = false := by decide
theorem test_wf_refuses_misaligned : (⟨.write, 32, 0x002, 0⟩ : Access).wf = false := by decide
theorem test_wf_refuses_data_of_read : (⟨.read, 32, 0x000, 1⟩ : Access).wf = false := by decide
theorem test_wf_refuses_reserved_command : (Instr.wrCmd 0).wf = false ∧ (Instr.wrCmd 4).wf = false := by decide
theorem test_wf_accepts : (⟨.write, 32, 0x380, 1⟩ : Access).wf = true ∧ (Instr.wrCmd 3).wf = true := by decide

/-! ### Primitives (2.1) -/

theorem test_bits : le32 0x61 0x62 0x63 0x80 = 0x80636261 ∧ bswap32 0x12345678 = 0x78563412 ∧
    rotl32 0x80000000 1 = 0x00000001 ∧ rotl32 0x12345678 7 = 0x1A2B3C09 ∧ rotl32 0x12345678 23 = 0x3C091A2B ∧
    rotl32 0x80000000 31 = 0x40000000 := by decide

theorem test_roundF : roundF 0 0xFFFF0000 0x12345678 0x9ABCDEF0 = 0x1234DEF0 ∧
    roundF 16 0xFFFF0000 0x12345678 0x9ABCDEF0 = 0x9ABC0008 ∧
    roundF 32 0xFFFF0000 0x12345678 0x9ABCDEF0 = 0x77778888 ∧
    roundF 48 0xFFFF0000 0x12345678 0x9ABCDEF0 = 0xEDCB7777 := by decide

theorem test_hexChar : hexChar 0 = 0x30 ∧ hexChar 9 = 0x39 ∧ hexChar 10 = 0x61 ∧ hexChar 15 = 0x66 := by decide

/-! ### The window (2.5) -/

theorem test_write_then_read_block_word :
    returned (.rdBlkw 0 0) (after (.wrBlkw 0 0 0x64636261) (engineOf 0xA5 0 false)) = [0x64636261] := by decide

theorem test_write_block_word_bytes :
    (after (.wrBlkw 7 15 0x11223344) (engineOf 0xA5 0 false)).blk[7].toList.drop 59 = [0xA5, 0x44, 0x33, 0x22, 0x11] := by
  decide

theorem test_length_register :
    returned (.rdLen 7) (after (.wrLen 7 55) (engineOf 0 0 false)) = [0x00000037] ∧
    returned (.rdLen 6) (after (.wrLen 7 55) (engineOf 0 0 false)) = [0] := by decide

theorem test_raw_and_presented :
    returned (.rdV 3 .c) (after (.wrV 3 .c 0xD98C1DD4) (engineOf 0 0 false)) = [0xD98C1DD4] ∧
    returned (.rdP 3 .c) (after (.wrV 3 .c 0xD98C1DD4) (engineOf 0 0 false)) = [0xD41D8CD9] := by decide

theorem test_status_read : returned .rdStatus (engineOf 0 0 true) = [1] ∧ returned .rdStatus (engineOf 0 0 false) = [0] := by
  decide

theorem test_status_write : (after (.wrStatus 0) (engineOf 0 0 true)).err = true ∧
    (after (.wrStatus 0xFFFFFFFF) (engineOf 0 0 true)).err = false ∧
    (after (.wrStatus 1) (engineOf 0 0 false)).err = false := by decide

theorem test_cmd_runs_compress :
    exec (.wrCmd 2) (stateOf (engineOf 0 0 false) []) = exec .compress (stateOf (engineOf 0 0 false) []) := rfl

theorem test_cmd_reserved : after (.wrCmd 0x00000101) (engineOf 0xA5 3 true) = engineOf 0xA5 3 true := by decide

/-! ### build_blocks (2.2, 2.6) -/

/-- The example of R103: "abc" and one don't-care byte. -/
theorem test_build_abc :
    returned (.rdBlkw 0 0) (after .buildBlocks ((withLength 0 3).setBlkw 0 0 0x5A636261)) = [0x80636261] ∧
    returned (.rdBlkw 0 14) (after .buildBlocks ((withLength 0 3).setBlkw 0 0 0x5A636261)) = [0x00000018] := by decide

/-- Length 55: bytes 52 to 54 stay, 0x80 at 55, bit length 440; length 56 in one lane: nothing is built. -/
theorem test_build_55_and_56 :
    (after .buildBlocks (withLength 3 55)).blk[3].toList.drop 54 = [0xA5, 0x80, 0xB8, 0x01, 0, 0, 0, 0, 0, 0] ∧
    after .buildBlocks (withLength 3 56) = { withLength 3 56 with err := true } := by decide

/-! ### compress (E1, 2.3) -/

/-- E1 in lane 5 of a batch: the empty message. -/
theorem test_compress_empty_message :
    (after .compress (after .buildBlocks (engineOf 0xA5 0 false))).quad 5 =
      ⟨0xD98C1DD4, 0x04B2008F, 0x980980E9, 0x7E42F8EC⟩ := by decide +kernel

/-- A block that is no padded block: 64 bytes 0xFF. -/
theorem test_compress_all_ones :
    (after .compress (engineOf 0xFF 0 true)).quad 0 = ⟨0x561987B4, 0x493E9151, 0xBDC6554B, 0x015C40DF⟩ := by decide +kernel

/-! ### expand_hex (2.4) -/

/-- Raw (0x04030201, 0x08070605, 0x0C0B0A09, 0x100F0E0D). -/
theorem test_expand_hex :
    (hexExpand ⟨0x04030201, 0x08070605, 0x0C0B0A09, 0x100F0E0D⟩).toList =
      [0x30, 0x31, 0x30, 0x32, 0x30, 0x33, 0x30, 0x34, 0x30, 0x35, 0x30, 0x36, 0x30, 0x37, 0x30, 0x38] ++
      [0x30, 0x39, 0x30, 0x61, 0x30, 0x62, 0x30, 0x63, 0x30, 0x64, 0x30, 0x65, 0x30, 0x66, 0x31, 0x30] ++
      [0x80, 0, 0, 0, 0, 0, 0, 0, 0, 0, 0, 0, 0, 0, 0, 0] ++
      [0, 0, 0, 0, 0, 0, 0, 0, 0, 0x01, 0, 0, 0, 0, 0, 0] := by decide

theorem test_expand_keeps_length_and_error :
    (after .expandHex (engineOf 0 3 true)).len = (engineOf 0 3 true).len ∧
    (after .expandHex (engineOf 0 3 true)).err = true ∧
    returned (.rdBlkw 2 14) (after .expandHex (engineOf 0 3 true)) = [0x00000100] := by decide

theorem test_zero_nibble_prefix :
    zeroNibblePrefix ⟨0x10000000, 0, 0, 0⟩ = 6 ∧ zeroNibblePrefix ⟨0, 0xF0, 0, 0⟩ = 8 ∧
    zeroNibblePrefix ⟨0, 0, 0, 0⟩ = 32 ∧ zeroNibblePrefix ⟨0x00000010, 0, 0, 0⟩ = 0 := by decide +kernel

/-! ### Scripts (R89) -/

theorem test_setmsg_script :
    setmsg 0 [0x61, 0x62, 0x63, 0x64, 0x65] =
      [.access ⟨.write, 32, 0x000, 0x64636261⟩, .access ⟨.write, 32, 0x004, 0x00000065⟩,
       .access ⟨.write, 32, 0x200, 5⟩] := by decide

theorem test_command_scripts :
    hash = [.access ⟨.write, 32, 0x380, 1⟩, .access ⟨.write, 32, 0x380, 2⟩] ∧
    stretch 1 = [.access ⟨.write, 32, 0x380, 3⟩, .access ⟨.write, 32, 0x380, 2⟩] ∧
    clrerr = [.access ⟨.write, 32, 0x384, 1⟩] := by decide

/-! ### Witnesses: the hypotheses of the statements can be met -/

/-- StepRunsDecodedAccess, both clauses; CommandWritePerformsOperation. -/
theorem witness_decoded_access :
    (stateOf (engineOf 0 0 false) [.access ⟨.write, 32, 0x380, 3⟩, .reset]).pending =
      .access (portAccess (.command 3)) :: [.reset] ∧
    decode (.access ⟨.write, 32, 0x380, 3⟩) = .ok (.wrCmd 3) ∧ decode (.command 3) = .ok .expandHex := by decide

/-- IdleStepChangesNothing. -/
theorem witness_idle : State.reset.pending = [] := rfl

/-- ReservedAccessesChangeNothing, its clauses at the ends of their ranges (the width, alignment and window clauses). -/
theorem witness_reserved_access :
    (⟨.write, 64, 0x000, 0⟩ : Access).width ≠ 32 ∧ (⟨.read, 32, 0xFFF, 0⟩ : Access).off.toNat % 4 ≠ 0 ∧
    (0x220 ≤ (0x220 : BitVec 12).toNat ∧ (0x27C : BitVec 12).toNat ≤ 0x27F) ∧ 0x388 ≤ (0x388 : BitVec 12).toNat ∧
    0x388 ≤ (0xFFC : BitVec 12).toNat ∧ (0x300 ≤ (0x300 : BitVec 12).toNat ∧ (0x37C : BitVec 12).toNat ≤ 0x37F) ∧
    (0x380 : BitVec 12).toNat = 0x380 := by decide

/-- ReservedAccessesChangeNothing, ReadsHaveNoSideEffect and StrictStepRefusesOnlyReservedActions: states whose next action
is such an access. -/
theorem witness_reserved_read_pending :
    ∃ t, step (stateOf (engineOf 0 0 false) [.access ⟨.read, 32, 0x380, 0⟩]) = .next t ∧
      t.reads = [Config.reservedRead 1] ∧ t.eng = engineOf 0 0 false ∧
      strictStep (stateOf (engineOf 0 0 false) [.access ⟨.read, 32, 0x380, 0⟩]) =
        .refused (.reservedAccess .writeOnlyPort) :=
  ⟨_, rfl, rfl, rfl, rfl⟩

/-- ReservedCommandWordsChangeNothing. -/
theorem witness_reserved_command :
    (0x00000000 : Word) ≠ 0x00000001 ∧ (0x00000000 : Word) ≠ 0x00000002 ∧ (0x00000000 : Word) ≠ 0x00000003 ∧
    (stateOf (engineOf 0 0 false) [.access ⟨.write, 32, 0x380, 0⟩]).pending =
      .access (portAccess (.command 0)) :: [] := by decide

/-- ReadOfBlockWord and WriteOfBlockWord, at both ends of the range. -/
theorem witness_block_word_offsets :
    ((0x000 : BitVec 12).toNat < 0x200 ∧ (0x000 : BitVec 12).toNat % 4 = 0 ∧
      (0 : Lane).val = (0x000 : BitVec 12).toNat / 64 ∧ (0 : Fin 16).val = (0x000 : BitVec 12).toNat / 4 % 16) ∧
    (0x1FC : BitVec 12).toNat < 0x200 ∧ (0x1FC : BitVec 12).toNat % 4 = 0 ∧
      (7 : Lane).val = (0x1FC : BitVec 12).toNat / 64 ∧ (15 : Fin 16).val = (0x1FC : BitVec 12).toNat / 4 % 16 := by
  decide

/-- DecodingIsEncodingReversed, second part. -/
theorem witness_wf_access : (⟨.write, 32, 0xFFC, 0xFFFFFFFF⟩ : Access).wf = true ∧
    (⟨.read, 32, 0x384, 0⟩ : Access).wf = true := by decide

/-- WriteOfStatus, both clauses. -/
theorem witness_status_words : (0x00000001 : Word).toNat % 2 = 1 ∧ (0xFFFFFFFE : Word).toNat % 2 = 0 := by decide

/-- BuiltBlockInvariants and BuiltBlockLengthWords: the shortest and the longest message. -/
theorem witness_built_block :
    (buildBlock []).isSome = true ∧ (buildBlock (List.replicate 55 0x61)).isSome = true ∧
    (buildBlock (List.replicate 56 0x61)).isSome = false := by decide

/-- BuildBlocksBuildsOrRaises, BuildBlocksPadsInPlace, BuildBlocksIsIdempotent, HashDigestsEveryLane: lengths 0 and 55 meet
the short clause; TooLongLeavesEveryBlock and ExceptionEntryAndReturn: 56 and 2^32 − 1 meet the long one. -/
theorem witness_lengths :
    (∀ j : Lane, (withLength 3 55).len[j].toNat < 56) ∧ 56 ≤ (withLength 3 56).len[(3 : Lane)].toNat ∧
    56 ≤ (withLength 7 0xFFFFFFFF).len[(7 : Lane)].toNat := by decide

/-- CompressedLaneDependsOnItsBlockOnly, both clauses: two states whose blocks are exchanged in lanes 0 and 1. -/
theorem witness_permuted_blocks :
    ∀ j : Lane, ((engineOf 0 0 true).setBlkw 1 0 5).blk[j] =
      ((engineOf 0 9 false).setBlkw 0 0 5).blk[Equiv.swap (0 : Lane) 1 j] := by decide

/-- RoundComputesNextWords: the ends of the four groups. -/
theorem witness_rounds : (0 < 64 ∧ 0 < 16) ∧ (16 ≤ 16 ∧ 31 < 32) ∧ (32 ≤ 32 ∧ 47 < 48) ∧ 48 ≤ 63 ∧ 63 < 64 := by decide

/-- PresentedWordFromDigestBytes and HexStringSpellsDigestBytes, at the last word and byte. -/
theorem witness_digest_bytes :
    (12 : Fin 16).val = 4 * wordSelIndex .d ∧ (13 : Fin 16).val = (12 : Fin 16).val + 1 ∧
    (14 : Fin 16).val = (12 : Fin 16).val + 2 ∧ (15 : Fin 16).val = (12 : Fin 16).val + 3 ∧
    (30 : Fin 32).val = 2 * (15 : Fin 16).val ∧ (31 : Fin 32).val = 2 * (15 : Fin 16).val + 1 := by decide

/-- ErrIsSetOnlyByTooLongBuild: a step that sets `ERR`. -/
theorem witness_err_set :
    (withLength 3 56).err = false ∧
    ∃ t, step (stateOf (withLength 3 56) [.access ⟨.write, 32, 0x380, 1⟩]) = .next t ∧ t.eng.err = true :=
  ⟨by decide, _, rfl, by decide⟩

/-- ErrIsClearedOnlyByHostOrReset: a write of `STATUS` and a reset that clear it. -/
theorem witness_err_cleared :
    (∃ t, step (stateOf (engineOf 0 0 true) [.access ⟨.write, 32, 0x384, 3⟩]) = .next t ∧ t.eng.err = false) ∧
    ∃ t, step (stateOf (engineOf 0 0 true) [.reset]) = .next t ∧ t.eng.err = false :=
  ⟨⟨_, rfl, by decide⟩, _, rfl, rfl⟩

/-- RebuildOfExpandedBlockAtLength32. -/
theorem witness_length_32 : ∀ j : Lane, (engineOf 0 32 false).len[j] = 32 := by decide

/-- ResetClearsErr, third part. -/
theorem witness_reset_pending : (stateOf (engineOf 0 0 true) [.reset, .reset]).pending = .reset :: [.reset] := rfl

/-- ShortLengthsAreKept: a state in which the host writes a length of 55 and builds; and it steps. -/
theorem witness_short_lengths :
    ShortLengths (stateOf (withLength 3 55) [.access ⟨.write, 32, 0x200, 55⟩, .access ⟨.write, 32, 0x380, 1⟩]) ∧
    ∃ t, step (stateOf (withLength 3 55) [.access ⟨.write, 32, 0x200, 55⟩, .access ⟨.write, 32, 0x380, 1⟩]) = .next t :=
  ⟨⟨by decide, by decide, by decide⟩, _, rfl⟩

/-- The host's script of R222 for one message, "abc" in lane 0, and seven lanes it does not care about, then `hash` and a
read of the digest's first word. -/
def oneMessage : Script :=
  setmsg 0 [0x61, 0x62, 0x63] ++ (List.ofFn fun j : Fin 7 => lineWr (.len j.succ) 0) ++ hash ++ [lineRd (.p 0 .a)]

/-- The premises of R235 are met right after reset, for a claim that speaks of lane 0. -/
theorem witness_defined_run :
    DefinedRun (fun j => j == 0) .afterReset { State.reset with pending := oneMessage } :=
  ⟨rfl, rfl, by decide, by decide, by decide +kernel⟩

/-- `expand_hex` right after reset: a claim may speak of no lane, since no words have been written (R222). -/
theorem test_unwritten_words :
    Written.throughout (commandReadsAreWritten fun j => j == 0) 1 Written.nothing
      { State.reset with pending := [line .expandHex] } = false ∧
    Written.throughout (commandReadsAreWritten fun _ => false) 1 Written.nothing
      { State.reset with pending := [line .expandHex] } = true := by decide +kernel

/-- `build_blocks` right after reset is in no defined run, whatever lanes the claim speaks of: no length has been written
(R222). -/
theorem test_build_after_reset_is_not_defined (lanes : Lane → Bool) :
    ¬DefinedRun lanes .afterReset { State.reset with pending := [line .buildBlocks] } := fun h => by
  have w := ((Written.throughout_of_step rfl rfl 0 _).1 h.written).1
  have unwritten := (readsAreWritten_iff (a := portAccess (encode .buildBlocks)) (i := .wrCmd 1) rfl).1 w (.len 0) rfl rfl
  exact Bool.noConfusion unwritten

/-- DefinedRunsAreNeverRefused. -/
theorem witness_not_reserved :
    ∀ x ∈ (stateOf (withLength 3 56) [.reset, .access ⟨.write, 32, 0x200, 55⟩, .access ⟨.write, 32, 0x380, 1⟩]).pending,
      reservedUse x = none := by decide

/-- DefinedRunsDependOnWrittenElementsOnly, both kinds of start: two states that differ in every element not written, and
one with every value given. -/
theorem witness_two_defined_runs :
    DefinedRun (fun j => j == 0) .afterReset (stateOf (engineOf 0xA5 99 false) oneMessage) ∧
    AgreeOn (fun j => j == 0) Start.afterReset.known (engineOf 0xA5 99 false) (engineOf 0x5A 7 false) ∧
    DefinedRun everyLane (.given fun _ => true) (stateOf (withLength 3 56) [line (.rdLen 3), line .buildBlocks]) ∧
    AgreeOn everyLane (Start.given fun _ => true).known (withLength 3 56) (withLength 3 56) :=
  ⟨⟨rfl, by decide, by decide, by decide, by decide +kernel⟩, ⟨rfl, fun _ h => by cases h⟩,
   ⟨by unfold Start.holds; decide +kernel, by decide, by decide, by decide, by decide +kernel⟩, ⟨rfl, fun _ _ _ => Engine.sameAt_refl _ _⟩⟩

/-- InstructionsWriteOnlyTheirFootprint and WrittenElementsDependOnReadOnes: elements in and outside the footprints, and
two states that agree on all that `compress` reads in lane 0. -/
theorem witness_footprints :
    (withLength 3 5).instrWrites .buildBlocks (.byte 3 4) = false ∧
    (withLength 3 5).instrWrites .buildBlocks (.byte 3 5) = true ∧
    (withLength 3 56).instrWrites .buildBlocks (.byte 3 63) = false ∧
    (withLength 3 56).instrReads .buildBlocks (.byte 3 54) = true ∧
    (withLength 3 56).instrReads .buildBlocks (.byte 3 55) = false ∧
    (withLength 3 5).instrWrites (.wrCmd 2) (.word 7 .d) = true ∧
    ∀ y : Element, (engineOf 7 1 false).instrReads .compress y = true → concerns (fun j => j == 0) y = true →
      (engineOf 7 1 false).sameAt (((engineOf 7 1 false).setBlkw 1 0 9).setWord 0 .a 3) y :=
  ⟨by decide, by decide, by decide, by decide, by decide, by decide, fun y hr hc => by
    cases y with
    | byte j k =>
      have hj : j = 0 := beq_iff_eq.1 hc
      subst hj
      rfl
    | len j => cases hr
    | word j w => cases hr⟩

/-- NeverBuildsIsKept: a state with lengths too long, in which the host resets and compresses; and it steps. -/
theorem witness_never_builds :
    NeverBuilds (stateOf (withLength 3 56) [.reset, .access ⟨.write, 32, 0x380, 2⟩]) ∧
    ∃ t, step (stateOf (withLength 3 56) [.reset, .access ⟨.write, 32, 0x380, 2⟩]) = .next t :=
  ⟨⟨by decide, by decide⟩, _, rfl⟩

/-- StepOfOneInstanceLeavesTheOthers: two instances, each with something to do. -/
theorem witness_two_instances :
    let p : Platform := [stateOf (engineOf 0 0 false) [.access ⟨.write, 32, 0x200, 5⟩],
      stateOf (engineOf 1 1 true) [.access ⟨.read, 32, 0x384, 0⟩]]
    (0 : Nat) ≠ 1 ∧ (p.stepAt 0).length = 2 ∧ p.stepAt 0 ≠ p ∧ p.stepAt 1 ≠ p := by decide

/-- SetmsgPlacesTheMessage: a message of 55 bytes. -/
theorem witness_setmsg :
    (List.replicate 55 (0x61 : Byte)).length < 56 ∧
    (stateOf (engineOf 0 0 false) (setmsg 7 (List.replicate 55 0x61) ++ hash)).pending =
      setmsg 7 (List.replicate 55 0x61) ++ hash := ⟨by decide, rfl⟩

/-- HashDigestsEveryLane and StretchIteratesTheDigest. -/
theorem witness_hash_and_stretch :
    (stateOf (engineOf 0 0 false) (hash ++ [.reset])).pending = hash ++ [.reset] ∧
    (stateOf (engineOf 0 0 false) (stretch 2 ++ [])).pending = stretch 2 ++ [] := ⟨rfl, rfl⟩

/-- EightMessagesAreHashed: messages of lengths 0 and 55. -/
theorem witness_eight_messages :
    (∀ j : Lane, ((fun j : Lane => if j = 0 then [] else List.replicate 55 (0x61 : Byte)) j).length < 56) ∧
    ∃ s : State, s.pending = ((List.finRange 8).flatMap fun j =>
      setmsg j ((fun j : Lane => if j = 0 then [] else List.replicate 55 (0x61 : Byte)) j)) ++ hash ++ [] :=
  ⟨by decide, stateOf (engineOf 0 0 false) _, rfl⟩

end Sys2Proof.Tests
end

section
/-! PROOFS. The ways an instruction can act on the state, said once (`ExecEffect`), and from them which instructions can
change which element (R35). -/

namespace Sys2Proof.Machine

/-- A write of a raw state word leaves the other lanes' words (R58). -/
theorem Engine.quad_setWord_of_ne (e : Engine) {j l : Lane} (h : j ≠ l) (w : WordSel) (v : Word) :
    (e.setWord j w v).quad l = e.quad l := by
  have hv : (j : Nat) ≠ l := Fin.val_ne_of_ne h
  cases w <;> simp [Engine.setWord, Engine.quad, hv]

/-- The host's reads of the register window (R55, R57 to R59, R61). -/
def IsRead (i : Instr) : Prop :=
  (∃ j n, i = .rdBlkw j n) ∨ (∃ j, i = .rdLen j) ∨ (∃ j w, i = .rdV j w) ∨ (∃ j w, i = .rdP j w) ∨ i = .rdStatus

/-- The ways an instruction can act on the state `s`, each with the instructions that act so: a command acts the same
whether it is named or written to `CMD` (R60). `exec_effect` ties it to `exec`. -/
inductive ExecEffect (s : State) : Instr → State → Prop
  /-- a read returns a value and changes nothing else (R55, R57 to R59, R61) -/
  | returned {i : Instr} (hi : IsRead i) (v : Word) : ExecEffect s i (s.deliver v)
  /-- `build_blocks` (R103) -/
  | built {i : Instr} (hi : i = .buildBlocks ∨ i = .wrCmd 1) : ExecEffect s i (s.onEngine Engine.buildAll)
  /-- `compress` (R121) -/
  | compressed {i : Instr} (hi : i = .compress ∨ i = .wrCmd 2) : ExecEffect s i (s.onEngine Engine.compressAll)
  /-- `expand_hex` (R168) -/
  | expanded {i : Instr} (hi : i = .expandHex ∨ i = .wrCmd 3) : ExecEffect s i (s.onEngine Engine.expandAll)
  /-- a block word is written (R56) -/
  | blkwSet (j : Lane) (n : Fin 16) (v : Word) : ExecEffect s (.wrBlkw j n v) (s.onEngine fun e => e.setBlkw j n v)
  /-- a length is written (R57) -/
  | lenSet (j : Lane) (v : Word) : ExecEffect s (.wrLen j v) (s.onEngine fun e => e.setLen j v)
  /-- a raw state word is written (R58) -/
  | wordSet (j : Lane) (w : WordSel) (v : Word) : ExecEffect s (.wrV j w v) (s.onEngine fun e => e.setWord j w v)
  /-- `STATUS` is written (R62) -/
  | statusSet (v : Word) : ExecEffect s (.wrStatus v) (s.onEngine fun e => e.writeStatus v)
  /-- a reserved command word changes nothing (R86) -/
  | ignored (v : Word) (h1 : v ≠ 1) (h2 : v ≠ 2) (h3 : v ≠ 3) : ExecEffect s (.wrCmd v) s

/-- The effect of a write to `CMD` is that of the command it selects (R60, R82, R86). -/
theorem wrCmd_effect (v : Word) (s : State) : ExecEffect s (.wrCmd v) (s.onEngine (Engine.command v)) := by
  unfold State.onEngine
  obtain ⟨rfl, he⟩ | ⟨rfl, he⟩ | ⟨rfl, he⟩ | ⟨h1, h2, h3, he⟩ := s.eng.command_cases v <;> rw [he]
  · exact .built (.inr rfl)
  · exact .compressed (.inr rfl)
  · exact .expanded (.inr rfl)
  · exact .ignored v h1 h2 h3

/-- Whatever `exec` answers is one of the listed effects. -/
theorem exec_effect {i : Instr} {s t : State} (h : exec i s = .next t) : ExecEffect s i t := by
  cases i <;> cases h
  case buildBlocks => exact .built (.inl rfl)
  case compress => exact .compressed (.inl rfl)
  case expandHex => exact .expanded (.inl rfl)
  case rdBlkw j n => exact .returned (.inl ⟨j, n, rfl⟩) _
  case wrBlkw j n v => exact .blkwSet j n v
  case rdLen j => exact .returned (.inr (.inl ⟨j, rfl⟩)) _
  case wrLen j v => exact .lenSet j v
  case rdV j w => exact .returned (.inr (.inr (.inl ⟨j, w, rfl⟩))) _
  case wrV j w v => exact .wordSet j w v
  case rdP j w => exact .returned (.inr (.inr (.inr (.inl ⟨j, w, rfl⟩)))) _
  case wrCmd v => exact wrCmd_effect v s
  case rdStatus => exact .returned (.inr (.inr (.inr (.inr rfl)))) _
  case wrStatus v => exact .statusSet v

/-! ### The writers of each element

The effects that keep the element contradict that it changed; the others name their instructions. -/

section
variable {i : Instr} {s t : State}

theorem ExecEffect.writer_of_blk_ne (h : ExecEffect s i t) (hne : t.eng.blk ≠ s.eng.blk) :
    i = .buildBlocks ∨ i = .expandHex ∨ (∃ j n v, i = .wrBlkw j n v) ∨ i = .wrCmd 1 ∨ i = .wrCmd 3 := by
  cases h with
  | built hi => obtain rfl | rfl := hi <;> simp
  | expanded hi => obtain rfl | rfl := hi <;> simp
  | blkwSet j n v => exact .inr (.inr (.inl ⟨j, n, v, rfl⟩))
  | returned | compressed | lenSet | wordSet | statusSet | ignored => simp at hne

theorem ExecEffect.writer_of_len_ne (h : ExecEffect s i t) (hne : t.eng.len ≠ s.eng.len) : ∃ j v, i = .wrLen j v := by
  cases h with
  | lenSet j v => exact ⟨j, v, rfl⟩
  | returned | built | compressed | expanded | blkwSet | wordSet | statusSet | ignored => simp at hne

theorem ExecEffect.writer_of_quad_ne (h : ExecEffect s i t) {j : Lane} (hne : t.eng.quad j ≠ s.eng.quad j) :
    i = .compress ∨ (∃ w v, i = .wrV j w v) ∨ i = .wrCmd 2 := by
  cases h with
  | compressed hi => obtain rfl | rfl := hi <;> simp
  | wordSet l w v =>
    have hl : l = j := by
      by_contra hl
      exact hne (Engine.quad_setWord_of_ne _ hl w v)
    exact .inr (.inl ⟨w, v, hl ▸ rfl⟩)
  | returned | built | expanded | blkwSet | lenSet | statusSet | ignored => simp at hne

theorem ExecEffect.writer_of_err_ne (h : ExecEffect s i t) (hne : t.eng.err ≠ s.eng.err) :
    i = .buildBlocks ∨ i = .wrCmd 1 ∨ ∃ v, i = .wrStatus v := by
  cases h with
  | built hi => obtain rfl | rfl := hi <;> simp
  | statusSet v => exact .inr (.inr ⟨v, rfl⟩)
  | returned | compressed | expanded | blkwSet | lenSet | wordSet | ignored => simp at hne

theorem ExecEffect.isRead_of_reads_ne (h : ExecEffect s i t) (hne : t.reads ≠ s.reads) : IsRead i := by
  cases h with
  | returned hi => exact hi
  | built | compressed | expanded | blkwSet | lenSet | wordSet | statusSet | ignored => simp at hne

end

/-- Settles O42: every instruction has one of the effects of `ExecEffect`, and each element is kept by all of them but its
writers' (R35). -/
theorem onlyTheNamedWritersChangeState : Obligations.OnlyTheNamedWritersChangeState := by
  intro i s
  obtain ⟨t, ht, hpending, -⟩ := exec_completes i s
  have he : ExecEffect s i t := exec_effect ht
  exact ⟨t, ht, hpending, he.writer_of_blk_ne, he.writer_of_len_ne, fun _ => he.writer_of_quad_ne, he.writer_of_err_ne,
    he.isRead_of_reads_ne⟩

end Sys2Proof.Machine
end

section
/-! PROOFS. The register window (R55 to R62): an access at a register's offset decodes by that register alone, and what each
register's read returns and its write leaves. -/

namespace Sys2Proof

/-! ### Decoding at a register's offset -/

/-- Of a read only the register at its offset matters, not its data (R51, R54). -/
theorem decode_readAt_regOffset (r : Reg) (d : Word) :
    decode (.access ⟨.read, 32, regOffset r, d⟩) = decodeRead r := by
  simp [decode, decodeAccess, regAt_regOffset]

theorem decode_writeAt_regOffset (r : Reg) (v : Word) :
    decode (.access ⟨.write, 32, regOffset r, v⟩) = decodeWrite v r := by
  simp [decode, decodeAccess, regAt_regOffset]

/-- The offsets 0x000..0x1FC that are multiples of 4 are those of the block words, with `j = off[8:6]` and `i = off[5:2]`
(R51, R55). -/
theorem regOffset_blkw_of_fields {off : BitVec 12} {j : Lane} {i : Fin 16} (halign : off.toNat % 4 = 0)
    (hj : j.val = off.toNat / 64) (hi : i.val = off.toNat / 4 % 16) : regOffset (.blkw j i) = off := by
  apply BitVec.eq_of_toNat_eq
  have := off.isLt
  simp only [regOffset, BitVec.toNat_ofNat]
  omega

namespace Machine

/-! ### What the reads return -/

/-- R55: the word read is put together from four bytes, the one with the lowest index lowest (R8, R22). -/
theorem Engine.toNat_blkw (e : Engine) (j : Lane) (i : Fin 16) :
    (e.blkw j i).toNat = e.blk[j][4 * i.val].toNat + 2 ^ 8 * e.blk[j][4 * i.val + 1].toNat +
      2 ^ 16 * e.blk[j][4 * i.val + 2].toNat + 2 ^ 24 * e.blk[j][4 * i.val + 3].toNat :=
  toNat_le32 ..

/-- R13: byte `k` of the swapped word is byte `3 - k` of the word. -/
theorem byteOf_bswap32 (x : Word) (k : Fin 4) : byteOf (bswap32 x) k.val = byteOf x (3 - k.val) := by
  obtain ⟨h0, h1, h2, h3⟩ := byteOf_le32 (byteOf x 3) (byteOf x 2) (byteOf x 1) (byteOf x 0)
  match k with
  | 0 => exact h0
  | 1 => exact h1
  | 2 => exact h2
  | 3 => exact h3

/-! ### What the writes leave -/

/-- R56: byte `k` of lane `l` after a block word is written. -/
theorem Engine.toNat_byte_setBlkw (e : Engine) (j l : Lane) (i : Fin 16) (v : Word) (k : Fin 64) :
    ((e.setBlkw j i v).blk[l][k]).toNat =
      if l = j ∧ k.val / 4 = i.val then v.toNat / 2 ^ (8 * (k.val % 4)) % 2 ^ 8 else e.blk[l][k].toNat := by
  change ((e.setBlkw j i v).block l)[k].toNat = _
  rw [Engine.block_setBlkw]
  by_cases hl : l = j
  · subst hl
    rw [if_pos rfl, setBlockWord_get, apply_ite BitVec.toNat, toNat_byteOf]
    simp [Engine.block]
  · simp [hl, Engine.block]

/-- R58: a write of a raw word changes none but the state words. -/
theorem Engine.setWord_eq (e : Engine) (j : Lane) (w : WordSel) (v : Word) :
    e.setWord j w v = { e with
      va := (e.setWord j w v).va, vb := (e.setWord j w v).vb, vc := (e.setWord j w v).vc, vd := (e.setWord j w v).vd } := by
  cases w <;> rfl

/-- R60: the write of a command word does what the instruction of its operation does. -/
theorem exec_wrCmd_of_decode {v : Word} {i : Instr} (h : decode (.command v) = .ok i) (s : State) :
    exec (.wrCmd v) s = exec i s := by
  cases hc : decodeCommand v with
  | error e => simp [decode, hc] at h
  | ok c =>
    obtain rfl : commandInstr c = i := by simpa [decode, hc] using h
    cases c <;> simp [commandInstr, State.onEngine, Engine.command, hc]

/-- R62: bit 0 set acknowledges the error. -/
theorem Engine.writeStatus_of_odd (e : Engine) {v : Word} (h : v.toNat % 2 = 1) :
    e.writeStatus v = e.acknowledgeError := by
  simp [Engine.writeStatus, BitVec.getLsbD, h]

/-- R62: bit 0 clear does nothing. -/
theorem Engine.writeStatus_of_even (e : Engine) {v : Word} (h : v.toNat % 2 = 0) : e.writeStatus v = e := by
  simp [Engine.writeStatus, BitVec.getLsbD, h]

/-! ### The statements -/

/-- Settles O11: the offset is that of the block word, and the word read is `Engine.toNat_blkw` (R55). -/
theorem readOfBlockWord : Obligations.ReadOfBlockWord := by
  intro s off d j i _ halign hj hi
  obtain rfl := regOffset_blkw_of_fields halign hj hi
  exact ⟨decode_readAt_regOffset (.blkw j i) d, s.eng.blkw j i, exec_rdBlkw j i s, s.eng.toNat_blkw j i⟩

/-- Settles O12: the offset is that of the block word, and each byte is as `Engine.toNat_byte_setBlkw` says (R56). -/
theorem writeOfBlockWord : Obligations.WriteOfBlockWord := by
  intro s off v j i _ halign hj hi
  obtain rfl := regOffset_blkw_of_fields halign hj hi
  exact ⟨decode_writeAt_regOffset (.blkw j i) v, (s.eng.setBlkw j i v).blk, exec_wrBlkw j i v s,
    fun l k => s.eng.toNat_byte_setBlkw j l i v k⟩

/-- Settles O13 (R57). -/
theorem lengthRegisterReadAndWrite : Obligations.LengthRegisterReadAndWrite := fun s j d v =>
  ⟨decode_readAt_regOffset (.len j) d, decode_writeAt_regOffset (.len j) v, exec_rdLen j s,
    (s.eng.setLen j v).len, exec_wrLen j v s, fun l => s.eng.getElem_setLen j l v⟩

/-- Settles O14: each of the four words of each lane is as `Engine.quadWord_setWord` says (R58). -/
theorem rawWordReadAndWrite : Obligations.RawWordReadAndWrite := by
  intro s j w d v
  have word (l : Lane) (u : WordSel) : quadWord ((s.eng.setWord j w v).quad l) u =
      if l = j ∧ w = u then v else quadWord (s.eng.quad l) u := by
    simp only [Engine.quadWord_setWord, eq_comm (a := u)]
  refine ⟨decode_readAt_regOffset (.v j w) d, decode_writeAt_regOffset (.v j w) v, exec_rdV j w s,
    _, _, _, _, ?_, fun l => ⟨word l .a, word l .b, word l .c, word l .d⟩⟩
  rw [← Engine.setWord_eq]
  exact exec_wrV j w v s

/-- Settles O15: the presented word is the raw word swapped, and its register can be read only (R59). -/
theorem readOfPresentedWord : Obligations.ReadOfPresentedWord := fun s j w d =>
  ⟨decode_readAt_regOffset (.p j w) d, decode_writeAt_regOffset (.p j w) d, s.eng.presented j w, exec_rdP j w s,
    fun k => byteOf_bswap32 (s.eng.word j w) k⟩

/-- Settles O16 (R60, R82). -/
theorem commandWritePerformsOperation : Obligations.CommandWritePerformsOperation := by
  intro s v d
  refine ⟨decode_writeAt_regOffset .cmd v, decode_readAt_regOffset .cmd d, fun i hi => ?_⟩
  obtain ⟨t, ht, -⟩ := exec_completes i s
  exact ⟨t, (exec_wrCmd_of_decode hi s).trans ht, ht⟩

/-- Settles O17 (R61). -/
theorem readOfStatus : Obligations.ReadOfStatus := fun s d =>
  ⟨decode_readAt_regOffset .status d, exec_rdStatus s⟩

/-- Settles O18: bit 0 of the data decides (R62). -/
theorem writeOfStatus : Obligations.WriteOfStatus := by
  intro s v
  refine ⟨decode_writeAt_regOffset .status v, fun hodd => ?_, fun heven => ?_⟩
  · rw [exec_wrStatus, State.onEngine, Engine.writeStatus_of_odd _ hodd]
    rfl
  · rw [exec_wrStatus, State.onEngine, Engine.writeStatus_of_even _ heven]

end Machine

end Sys2Proof
end

section
/-! PROOFS. The decoding of command words (R82, R86). -/

namespace Sys2Proof

/-- R86: a word that selects no operation is reserved. -/
theorem decode_command_of_reserved {v : Word} (h : decodeCommand v = .error .reservedCommand) :
    decode (.command v) = .error .reservedCommand := by
  simp [decode, h]

/-- Settles O5: the words 1, 2 and 3 are evaluated; any other word is none of them as a number either, so that it is reserved
whether or not its bits 31:8 are zero (R82, R86). -/
theorem commandWordDecoding : Obligations.CommandWordDecoding := by
  intro v
  obtain ⟨rfl, -⟩ | ⟨rfl, -⟩ | ⟨rfl, -⟩ | ⟨h1, h2, h3, hreserved⟩ := decodeCommand_cases v
  · rfl
  · rfl
  · rfl
  · have n1 : v.toNat ≠ 1 := BitVec.toNat_ne_iff_ne.mpr h1
    have n2 : v.toNat ≠ 2 := BitVec.toNat_ne_iff_ne.mpr h2
    have n3 : v.toNat ≠ 3 := BitVec.toNat_ne_iff_ne.mpr h3
    rw [decode_command_of_reserved hreserved, if_neg n1, if_neg n2, if_neg n3, ite_self]

end Sys2Proof
end

section
/-! PROOFS. The Block Builder (R101 to R107): the padding invariants, said once for a block that is built from a
message and for one that is padded in place, and the two outcomes of `build_blocks`. -/

namespace Sys2Proof.Machine

/-! ### The padding -/

theorem padByte_self (L : Nat) : padByte L L = 0x80 := if_pos rfl

theorem padByte_of_between {L k : Nat} (hL : L < k) (hk : k < 56) : padByte L k = 0x00 := by
  rw [padByte, if_neg hL.ne', if_pos hk]

/-- The bit length's own bytes, lowest first (R101). -/
theorem toNat_padByte_of_le {L k : Nat} (hL : L < 56) (hk : 56 ≤ k) :
    (padByte L k).toNat = 8 * L / 2 ^ (8 * (k - 56)) % 2 ^ 8 := by
  rw [padByte, if_neg (hL.trans_le hk).ne', if_neg hk.not_gt, le64Byte, BitVec.toNat_ofNat]

/-- R104, invariants 2 to 4: they hold of any block that is padded from index `L` on. -/
theorem padding_invariants (b : Block) {L : Nat} (hL : L < 56)
    (hpad : ∀ k : Fin 64, L ≤ k.val → b[k] = padByte L k) :
    (∀ k : Fin 64, k.val = L → b[k] = 0x80) ∧
    (∀ k : Fin 64, L < k.val → k.val < 56 → b[k] = 0x00) ∧
    (∀ k : Fin 64, 56 ≤ k.val → b[k].toNat = 8 * L / 2 ^ (8 * (k.val - 56)) % 2 ^ 8) := by
  refine ⟨fun k hk => ?_, fun k hlt hk => ?_, fun k hk => ?_⟩
  · rw [hpad k hk.ge, hk, padByte_self]
  · rw [hpad k hlt.le, padByte_of_between hlt hk]
  · rw [hpad k (hL.le.trans hk), toNat_padByte_of_le hL hk]

/-! ### Blocks built from a message and blocks padded in place -/

/-- R101: `build_block` has a value only below 56 bytes, and there it is fixed byte by byte. -/
theorem buildBlock_eq_some_iff {msg : List Byte} {b : Block} :
    buildBlock msg = some b ↔ msg.length < 56 ∧
      ∀ k : Fin 64, b[k] = if k.val < msg.length then msg.getD k.val 0 else padByte msg.length k := by
  unfold buildBlock
  split
  next h =>
    rw [Option.some.injEq, and_iff_right (Nat.lt_succ_of_le h)]
    constructor
    · rintro rfl k
      simp
    · intro hb
      ext k hk : 1
      exact (Vector.getElem_ofFn hk).trans (hb ⟨k, hk⟩).symm
  next h => exact iff_of_false nofun fun hb => h (Nat.le_of_lt_succ hb.1)

theorem exists_buildBlock_iff {msg : List Byte} : (∃ b, buildBlock msg = some b) ↔ msg.length < 56 := by
  constructor
  · rintro ⟨b, hb⟩
    exact (buildBlock_eq_some_iff.1 hb).1
  · intro h
    exact ⟨_, if_pos (Nat.le_of_lt_succ h)⟩

theorem padInPlace_get_of_lt (b : Block) {L : Nat} {k : Fin 64} (h : k.val < L) : (padInPlace b L)[k] = b[k] := by
  rw [padInPlace_get, if_pos h]

theorem padInPlace_get_of_le (b : Block) {L : Nat} {k : Fin 64} (h : L ≤ k.val) :
    (padInPlace b L)[k] = padByte L k := by
  rw [padInPlace_get, if_neg h.not_gt]

theorem length_blockMessage (b : Block) {L : Nat} (hL : L < 56) : (blockMessage b L).length = L := by
  rw [blockMessage, List.length_take, Vector.length_toList]
  omega

theorem getD_blockMessage (b : Block) {L : Nat} {k : Fin 64} (h : k.val < L) :
    (blockMessage b L).getD k.val 0 = b[k] := by
  simp [blockMessage, List.getD, h]

/-- R103, R106: padding a block in place builds the block of the message that stands in it. -/
theorem buildBlock_blockMessage (b : Block) {L : Nat} (hL : L < 56) :
    buildBlock (blockMessage b L) = some (padInPlace b L) := by
  rw [buildBlock_eq_some_iff, length_blockMessage b hL]
  refine ⟨hL, fun k => ?_⟩
  split
  next hk => rw [padInPlace_get_of_lt b hk, getD_blockMessage b hk]
  next hk => exact padInPlace_get_of_le b (not_lt.1 hk)

/-! ### The two outcomes of the instruction -/

/-- R103, success: only `BLK` changes, and each lane's block is padded from its length on. -/
theorem exec_buildBlocks_of_short {s : State} (h : ∀ j : Lane, s.eng.len[j].toNat < 56) :
    ∃ blk', exec .buildBlocks s = .next { s with eng := { s.eng with blk := blk' } } ∧
      ∀ j : Lane, blk'[j] = padInPlace s.eng.blk[j] s.eng.len[j].toNat := by
  refine ⟨s.eng.buildAll.blk, ?_, fun j => ?_⟩
  · rw [exec_buildBlocks, State.onEngine, Engine.buildAll_of_short h, Engine.setBlocks_blk]
    rfl
  · rw [Engine.buildAll_of_short h]
    exact Engine.block_setBlocks s.eng _ j

/-- R103, failure: only `ERR` changes (R107). -/
theorem exec_buildBlocks_of_long {s : State} {j : Lane} (h : 56 ≤ s.eng.length j) :
    exec .buildBlocks s = .next { s with eng := s.eng.raiseInputTooLong } := by
  rw [exec_buildBlocks, State.onEngine, Engine.buildAll_of_long h]

/-! ### The statements -/

/-- Settles O20: the bytes below `L` are the message's, and the others are padding (R101, R104). -/
theorem builtBlockInvariants : Obligations.BuiltBlockInvariants := by
  refine ⟨fun _ => exists_buildBlock_iff, fun msg b hb => ?_⟩
  obtain ⟨hL, hbyte⟩ := buildBlock_eq_some_iff.1 hb
  have hpad (k : Fin 64) (hk : msg.length ≤ k.val) : b[k] = padByte msg.length k := by
    rw [hbyte k, if_neg hk.not_gt]
  refine ⟨fun k hk => ?_, padding_invariants b hL hpad⟩
  rw [hbyte k, if_pos hk, List.getD_eq_getElem _ _ hk]

/-- Settles O22: padding in place builds each lane's block (`buildBlock_blockMessage`), or a lane is too long (R103). -/
theorem buildBlocksBuildsOrRaises : Obligations.BuildBlocksBuildsOrRaises := by
  refine fun s => ⟨fun hshort => ?_, fun ⟨j, hlong⟩ => exec_buildBlocks_of_long hlong⟩
  obtain ⟨blk', hexec, hblk⟩ := exec_buildBlocks_of_short hshort
  refine ⟨blk', hexec, fun j => ?_⟩
  rw [hblk j]
  exact buildBlock_blockMessage _ (hshort j)

/-- Settles O23: below the length `padInPlace` keeps the byte, from there on it pads (R106). -/
theorem buildBlocksPadsInPlace : Obligations.BuildBlocksPadsInPlace := by
  intro s hshort
  obtain ⟨blk', hexec, hblk⟩ := exec_buildBlocks_of_short hshort
  refine ⟨blk', hexec, fun j k => ?_⟩
  rw [hblk j]
  obtain ⟨hmark, hzero, hbits⟩ :=
    padding_invariants (padInPlace s.eng.blk[j] _) (hshort j) fun _ => padInPlace_get_of_le _
  exact ⟨padInPlace_get_of_lt _, hmark k, hzero k, hbits k⟩

/-- Settles O24: the failure raises the error and does nothing else (R107). -/
theorem tooLongLeavesEveryBlock : Obligations.TooLongLeavesEveryBlock := fun _ _ hlong =>
  ⟨_, exec_buildBlocks_of_long hlong, rfl, rfl, rfl, rfl, rfl, rfl, rfl, rfl, rfl⟩

end Sys2Proof.Machine
end

section
/-! PROOFS. The Vector Compressor (R121 to R137): one round with the nonlinear function of its group, and the lanes'
independence of each other. -/

namespace Sys2Proof.Machine

/-! ### One round -/

section
variable {r : Nat} (b c d : Word)

theorem roundF_of_lt_16 (h : r < 16) : roundF r b c d = (b &&& c) ||| (~~~b &&& d) := if_pos h

theorem roundF_of_lt_32 (h16 : 16 ≤ r) (h : r < 32) : roundF r b c d = (b &&& d) ||| (c &&& ~~~d) := by
  rw [roundF, if_neg h16.not_gt, if_pos h]

theorem roundF_of_lt_48 (h32 : 32 ≤ r) (h : r < 48) : roundF r b c d = b ^^^ c ^^^ d := by
  have h16 : ¬ r < 16 := by omega
  rw [roundF, if_neg h16, if_neg h32.not_gt, if_pos h]

theorem roundF_of_ge_48 (h48 : 48 ≤ r) : roundF r b c d = c ^^^ (b ||| ~~~d) := by
  have h16 : ¬ r < 16 := by omega
  have h32 : ¬ r < 32 := by omega
  rw [roundF, if_neg h16, if_neg h32, if_neg h48.not_gt]

end

/-- The shift amounts of the 64 rounds are amounts for which R12 gives the rotation (R126). -/
theorem roundS_bounds : ∀ r < 64, 1 ≤ roundS r ∧ roundS r ≤ 31 := by decide

/-- The word a round computes, with the rotation of the library (R12, R128). -/
theorem roundWord_eq_rotateLeft (m : Vector Word 16) {r : Nat} (hr : r < 64) (a b c d : Word) :
    roundWord m r a b c d = b + (a + roundF r b c d + roundK r + m[roundG r]).rotateLeft (roundS r) := by
  rw [roundWord, rotl32_eq_rotateLeft _ _ (roundS_bounds r hr)]

/-! ### One command over the lanes -/

/-- R134: the words of a lane are fixed by its block, whatever the lane and the rest of the engine. -/
theorem Engine.quad_compressAll_congr {e e' : Engine} {j l : Lane} (h : e'.block j = e.block l) :
    e'.compressAll.quad j = e.compressAll.quad l := by
  rw [Engine.quad_compressAll, Engine.quad_compressAll, h]

/-- R137: `compress` changes none but the state words. -/
theorem Engine.compressAll_eq (e : Engine) :
    e.compressAll = { e with
      va := e.compressAll.va, vb := e.compressAll.vb, vc := e.compressAll.vc, vd := e.compressAll.vd } := rfl

/-! ### The statements -/

/-- Settles O27: `F` is `roundF`, known group by group, and the round's shift amount is one that the library's rotation
agrees on (R127, R128). -/
theorem roundComputesNextWords : Obligations.RoundComputesNextWords := by
  intro m r q hr
  refine ⟨roundF r q.b q.c q.d, roundF_of_lt_16 _ _ _, roundF_of_lt_32 _ _ _, roundF_of_lt_48 _ _ _,
    roundF_of_ge_48 _ _ _, ?_⟩
  rw [round, roundWord_eq_rotateLeft m hr]

/-- Settles O30: both clauses are `Engine.quad_compressAll_congr`, the second at the lane the permutation names (R134). -/
theorem compressedLaneDependsOnItsBlockOnly : Obligations.CompressedLaneDependsOnItsBlockOnly := by
  intro s s'
  refine ⟨_, _, exec_compress s, exec_compress s', fun j l hblk => ?_,
    fun σ hperm j => Engine.quad_compressAll_congr (hperm j)⟩
  exact Quad.mk.inj (Engine.quad_compressAll_congr hblk)

/-- Settles O26: the words are as `Engine.quad_compressAll` says, and all else stays by `Engine.compressAll_eq` (R121,
R137). -/
theorem compressHashesEveryLane : Obligations.CompressHashesEveryLane := by
  intro s
  refine ⟨_, _, _, _, ?_, fun j => (s.eng.quad_compressAll j).symm⟩
  rw [← Engine.compressAll_eq]
  exact exec_compress s

end Sys2Proof.Machine
end

section
/-! PROOFS. The Digest Consumer's text (R165 to R172): the two characters of a digest byte, and the bytes of the hex
expansion. -/

namespace Sys2Proof.Machine

/-! ### The characters -/

theorem toNat_highNibble (x : Byte) : (highNibble x).toNat = x.toNat / 16 := by
  have := x.isLt
  rw [highNibble, BitVec.extractLsb'_toNat, Nat.shiftRight_eq_div_pow]
  omega

theorem toNat_lowNibble (x : Byte) : (lowNibble x).toNat = x.toNat % 16 := by
  rw [lowNibble, BitVec.extractLsb'_toNat, Nat.shiftRight_zero]

/-- R166: the ASCII codes of '0'..'9' and 'a'..'f'; adding the offset overflows no byte. -/
theorem toNat_hexChar (v : Nibble) : (hexChar v).toNat = v.toNat + if v.toNat ≤ 9 then 0x30 else 0x57 := by
  have := v.isLt
  unfold hexChar
  split <;> rw [BitVec.toNat_ofNat] <;> omega

/-- R165: the even characters are the high nibbles. -/
theorem hexByte_of_eq_two_mul (q : Quad) {n : Fin 16} {k : Fin 32} (h : k.val = 2 * n.val) :
    hexByte q k = hexChar (highNibble (digestByte q n)) := by
  have hn : (⟨k.val / 2, by omega⟩ : Fin 16) = n := Fin.ext (by simp only; omega)
  rw [hexByte, hn]
  exact if_pos (by omega)

/-- R165: the odd characters are the low nibbles. -/
theorem hexByte_of_eq_two_mul_add_one (q : Quad) {n : Fin 16} {k : Fin 32} (h : k.val = 2 * n.val + 1) :
    hexByte q k = hexChar (lowNibble (digestByte q n)) := by
  have hn : (⟨k.val / 2, by omega⟩ : Fin 16) = n := Fin.ext (by simp only; omega)
  rw [hexByte, hn]
  exact if_neg (by omega)

/-! ### The hex expansion (R167) -/

theorem hexExpand_get (q : Quad) (k : Fin 64) :
    (hexExpand q)[k] = if h : k.val < 32 then hexByte q ⟨k.val, h⟩
      else if k.val = 32 then 0x80 else if k.val = 57 then 0x01 else 0x00 := by
  simp [hexExpand]

theorem hexExpand_get_of_lt (q : Quad) {k : Fin 64} (h : k.val < 32) : (hexExpand q)[k] = hexByte q ⟨k.val, h⟩ := by
  rw [hexExpand_get, dif_pos h]

theorem hexExpand_get_of_eq_32 (q : Quad) {k : Fin 64} (h : k.val = 32) : (hexExpand q)[k] = 0x80 := by
  rw [hexExpand_get, dif_neg h.not_lt, if_pos h]

theorem hexExpand_get_of_eq_57 (q : Quad) {k : Fin 64} (h : k.val = 57) : (hexExpand q)[k] = 0x01 := by
  rw [hexExpand_get, dif_neg (by omega), if_neg (by omega), if_pos h]

theorem hexExpand_get_of_gt (q : Quad) {k : Fin 64} (h : 32 < k.val) (h57 : k.val ≠ 57) : (hexExpand q)[k] = 0x00 := by
  rw [hexExpand_get, dif_neg h.not_gt, if_neg h.ne', if_neg h57]

/-- R172: `expand_hex` changes none but the blocks. -/
theorem Engine.expandAll_eq (e : Engine) : e.expandAll = { e with blk := e.expandAll.blk } := rfl

/-! ### The statements -/

/-- Settles O34: the character of a nibble is `toNat_hexChar`, and the parity of its place says which nibble it is (R165,
R166). -/
theorem hexStringSpellsDigestBytes : Obligations.HexStringSpellsDigestBytes := by
  intro q n hi lo hhi hlo
  rw [hexByte_of_eq_two_mul q hhi, hexByte_of_eq_two_mul_add_one q hlo, toNat_hexChar, toNat_hexChar, toNat_highNibble,
    toNat_lowNibble]
  exact ⟨rfl, rfl⟩

/-- Settles O35: each lane's block is the hex expansion of its words (`Engine.block_expandAll`), known byte by byte, and
all else stays by `Engine.expandAll_eq` (R167, R168, R172). -/
theorem expandHexWritesEveryBlock : Obligations.ExpandHexWritesEveryBlock := by
  intro s
  refine ⟨s.eng.expandAll.blk, ?_, fun j k => ?_⟩
  · rw [← Engine.expandAll_eq]
    exact exec_expandHex s
  · have hblk : s.eng.expandAll.blk[j] = hexExpand (s.eng.quad j) := s.eng.block_expandAll j
    rw [hblk]
    exact ⟨hexExpand_get_of_lt _, hexExpand_get_of_eq_32 _, fun hlo hhi => hexExpand_get_of_gt _ hlo hhi.ne,
      hexExpand_get_of_eq_57 _, fun hlo => hexExpand_get_of_gt _ (by omega) (by omega)⟩

end Sys2Proof.Machine
end

section
/-! PROOFS. The exception InputTooLong (R190 to R199): which step can raise it, what its acknowledgement undoes, and that no
command reads `ERR`. -/

namespace Sys2Proof.Machine

/-! ### What raises the error -/

/-- The command words are no encodings of accesses: an access names `build_blocks` by `CMD` only (R51, R60). -/
theorem decodeAccess_ne_buildBlocks (a : Access) : decodeAccess a ≠ .ok .buildBlocks := by
  intro h
  obtain ⟨-, r, -, ⟨-, hr⟩ | ⟨-, hw⟩⟩ := decodeAccess_ok h
  · cases r <;> cases hr
  · cases r <;> cases hw

/-- `ERR` after `build_blocks`: it stays, or a length raises it (R190, R199). -/
theorem Engine.buildAll_err_iff (e : Engine) :
    e.buildAll.err = true ↔ e.err = true ∨ ∃ j : Lane, 56 ≤ e.length j := by
  obtain ⟨hlong, h⟩ | ⟨hshort, h⟩ := e.buildAll_cases
  · rw [h]
    exact iff_of_true rfl (.inr hlong)
  · rw [h, Engine.setBlocks_err, or_iff_left fun ⟨j, hj⟩ => (hshort j).not_ge hj]

/-- R60, R83: the command word 1 written to `CMD` is `build_blocks`. -/
theorem exec_wrCmd_one (s : State) : exec (.wrCmd 1) s = exec .buildBlocks s := exec_wrCmd_of_decode rfl s

/-- Of all instructions only `build_blocks`, named or written to `CMD`, raises the error, and only for a length that is too
long (R190). -/
theorem exec_sets_err {i : Instr} {s t : State} (h : exec i s = .next t) (hs : s.eng.err = false)
    (ht : t.eng.err = true) : (i = .buildBlocks ∨ i = .wrCmd 1) ∧ ∃ j : Lane, 56 ≤ s.eng.length j := by
  have long (hb : exec .buildBlocks s = .next t) : ∃ j : Lane, 56 ≤ s.eng.length j := by
    cases hb
    exact (s.eng.buildAll_err_iff.1 ht).resolve_left (by simp [hs])
  obtain rfl | rfl | ⟨v, rfl⟩ := (exec_effect h).writer_of_err_ne (by simp [hs, ht])
  · exact ⟨.inl rfl, long h⟩
  · exact ⟨.inr rfl, long ((exec_wrCmd_one s).symm.trans h)⟩
  · cases h
    simp [Engine.writeStatus_err, hs] at ht

/-- A step that raises the error performs the instruction of an access: an idle step and a reserved access keep `ERR`, and a
reset clears it (R63, R220, R234). -/
theorem step_sets_err {s t : State} (h : step s = .next t) (hs : s.eng.err = false) (ht : t.eng.err = true) :
    ∃ a rest i, s.pending = .access a :: rest ∧ decodeAccess a = .ok i ∧
      exec i { s with pending := rest } = .next t := by
  obtain ⟨-, hstep⟩ | ⟨rest, -, hstep⟩ | ⟨a, rest, i, hp, hd, hstep⟩ | ⟨a, rest, e, -, -, hstep⟩ := step_cases s
  case inr.inr.inl => exact ⟨a, rest, i, hp, hd, hstep ▸ h⟩
  all_goals
    cases hstep.symm.trans h
    simp [hs] at ht

/-! ### What the commands make of `ERR` -/

/-- `f` does not read `ERR`, and leaves it set where it is set (R199). -/
def IgnoresErr (f : Engine → Engine) : Prop :=
  ∀ (e : Engine) (b : Bool), ({ f e with err := true } : Engine) = { f { e with err := b } with err := true } ∧
    (e.err = true → (f e).err = true)

/-- The outcome of `build_blocks` is decided by the lengths, which are the same for both values of `ERR`. -/
theorem buildAll_ignoresErr : IgnoresErr Engine.buildAll := by
  refine fun e b => ⟨?_, fun h => e.buildAll_err_iff.2 (.inl h)⟩
  obtain ⟨⟨j, hj⟩, h⟩ | ⟨hshort, h⟩ := e.buildAll_cases
  · rw [h, Engine.buildAll_of_long (e := { e with err := b }) hj]
    rfl
  · rw [h, Engine.buildAll_of_short (e := { e with err := b }) hshort]
    rfl

theorem compressAll_ignoresErr : IgnoresErr Engine.compressAll := fun _ _ => ⟨rfl, id⟩

theorem expandAll_ignoresErr : IgnoresErr Engine.expandAll := fun _ _ => ⟨rfl, id⟩

/-! ### The statements -/

/-- Settles O38: a step that raises the error performs an instruction (`step_sets_err`), which is the write of the command
word 1 with a length too long (`exec_sets_err`); and that write does raise it (R190). -/
theorem errIsSetOnlyByTooLongBuild : Obligations.ErrIsSetOnlyByTooLongBuild := by
  intro s t hs hstep
  constructor
  · intro ht
    obtain ⟨a, rest, i, hp, hd, hexec⟩ := step_sets_err hstep hs ht
    obtain ⟨rfl | rfl, hlong⟩ := exec_sets_err hexec hs ht
    · exact absurd hd (decodeAccess_ne_buildBlocks a)
    · exact ⟨⟨a, rest, hp, hd⟩, hlong⟩
  · rintro ⟨⟨a, rest, hp, hd⟩, j, hlong⟩
    have hraise := (step_of_ok hp hd).trans ((exec_wrCmd_one _).trans (exec_buildBlocks_of_long hlong))
    cases hraise.symm.trans hstep
    rfl

/-- Settles O41: each command acts on the engine by a function that ignores `ERR` (R199). -/
theorem commandsIgnoreErr : Obligations.CommandsIgnoreErr := by
  rintro i s b (rfl | rfl | rfl)
  · exact ⟨_, _, rfl, rfl, buildAll_ignoresErr s.eng b⟩
  · exact ⟨_, _, rfl, rfl, compressAll_ignoresErr s.eng b⟩
  · exact ⟨_, _, rfl, rfl, expandAll_ignoresErr s.eng b⟩

/-- Settles O40: the exception raises `ERR`, and the write of `STATUS` is its acknowledgement (R197, R198). -/
theorem exceptionEntryAndReturn : Obligations.ExceptionEntryAndReturn := by
  intro s j v hlong hodd
  obtain ⟨-, hack, -⟩ := writeOfStatus { s with eng := s.eng.raiseInputTooLong } v
  exact ⟨_, exec_buildBlocks_of_long hlong, rfl, hack hodd⟩

end Sys2Proof.Machine
end

section
/-! PROOFS. Decoding and encoding as inverses (R51, R82), and the opcode table as a description of both. -/

namespace Sys2Proof

/-! ### Decoding what was encoded -/

/-- Settles O2: a command word is evaluated; an access is at the offset of its register, which decodes by that
register alone (R51, R82). -/
theorem decodeAfterEncodeIsIdentity : Obligations.DecodeAfterEncodeIsIdentity := by
  intro i
  cases i with
  | buildBlocks | compress | expandHex => rfl
  | rdBlkw j n => exact decode_readAt_regOffset (.blkw j n) 0
  | wrBlkw j n v => exact decode_writeAt_regOffset (.blkw j n) v
  | rdLen j => exact decode_readAt_regOffset (.len j) 0
  | wrLen j v => exact decode_writeAt_regOffset (.len j) v
  | rdV j w => exact decode_readAt_regOffset (.v j w) 0
  | wrV j w v => exact decode_writeAt_regOffset (.v j w) v
  | rdP j w => exact decode_readAt_regOffset (.p j w) 0
  | wrCmd v => exact decode_writeAt_regOffset .cmd v
  | rdStatus => exact decode_readAt_regOffset .status 0
  | wrStatus v => exact decode_writeAt_regOffset .status v

theorem decode_of_encode {x : Encoding} {i : Instr} (h : encode i = x) : decode x = .ok i :=
  h ▸ decodeAfterEncodeIsIdentity i

/-! ### Encoding what was decoded -/

theorem encode_of_decode_command {v : Word} {i : Instr} (h : decode (.command v) = .ok i) : encode i = .command v := by
  obtain ⟨rfl, -⟩ | ⟨rfl, -⟩ | ⟨rfl, -⟩ | ⟨-, -, -, hreserved⟩ := decodeCommand_cases v
  · cases h
    rfl
  · cases h
    rfl
  · cases h
    rfl
  · simp [decode_command_of_reserved hreserved] at h

/-- The access in the one spelling that encodings have: a read carries no data (R88). -/
def Access.spelled (a : Access) : Access :=
  match a.dir with
  | .read => { a with data := 0 }
  | .write => a

theorem Access.spelled_of_wf {a : Access} (h : a.wf = true) : a.spelled = a := by
  obtain ⟨dir, width, off, data⟩ := a
  cases dir <;> simp_all [Access.wf, Access.spelled]

/-- The opcode table does not look at the data (R51). -/
theorem rowMatches_spelled (row : OpcodeRow) (a : Access) :
    rowMatches row (.access a.spelled) = rowMatches row (.access a) := by
  obtain ⟨dir, width, off, data⟩ := a
  cases dir <;> rfl

/-- The instruction that a read at a register decodes to is encoded as that read. -/
theorem encode_of_decodeRead {r : Reg} {i : Instr} (h : decodeRead r = .ok i) : encode i = .access (readAccess r) := by
  cases r <;> cases h <;> rfl

theorem encode_of_decodeWrite {r : Reg} {v : Word} {i : Instr} (h : decodeWrite v r = .ok i) :
    encode i = .access (writeAccess r v) := by
  cases r <;> cases h <;> rfl

/-- A decoded access is, up to the data of a read, the encoding of what it decodes to. -/
theorem encode_of_decodeAccess {a : Access} {i : Instr} (h : decodeAccess a = .ok i) : encode i = .access a.spelled := by
  obtain ⟨hwidth, r, hreg, hdir⟩ := decodeAccess_ok h
  obtain ⟨dir, width, off, data⟩ := a
  obtain rfl : width = 32 := hwidth
  obtain rfl : regOffset r = off := regOffset_of_regAt hreg
  obtain ⟨rfl, hr⟩ | ⟨rfl, hw⟩ := hdir
  · exact encode_of_decodeRead hr
  · exact encode_of_decodeWrite hw

/-- Settles O3: one direction is the round trip of O2, the other the two lemmas above; an access of the form of R54 is
in the spelling of encodings. -/
theorem decodingIsEncodingReversed : Obligations.DecodingIsEncodingReversed := by
  refine ⟨fun v i => ⟨encode_of_decode_command, decode_of_encode⟩, fun a i hwf => ⟨fun h => ?_, decode_of_encode⟩⟩
  rw [encode_of_decodeAccess h, Access.spelled_of_wf hwf]

/-- Settles O1: each word is evaluated. -/
theorem specWordsDecode : Obligations.SpecWordsDecode := by
  unfold Obligations.SpecWordsDecode
  decide

/-! ### The opcode table -/

theorem encoding_in_table (i : Instr) : Laws.EncodingInTable.Statement i := by
  cases i with
  | buildBlocks => exact Laws.EncodingInTable.buildBlocks
  | compress => exact Laws.EncodingInTable.compress
  | expandHex => exact Laws.EncodingInTable.expandHex
  | rdBlkw j n => exact Laws.EncodingInTable.rdBlkw j n
  | wrBlkw j n v => exact Laws.EncodingInTable.wrBlkw j n v
  | rdLen j => exact Laws.EncodingInTable.rdLen j
  | wrLen j v => exact Laws.EncodingInTable.wrLen j v
  | rdV j w => exact Laws.EncodingInTable.rdV j w
  | wrV j w v => exact Laws.EncodingInTable.wrV j w v
  | rdP j w => exact Laws.EncodingInTable.rdP j w
  | wrCmd v => exact Laws.EncodingInTable.wrCmd v
  | rdStatus => exact Laws.EncodingInTable.rdStatus
  | wrStatus v => exact Laws.EncodingInTable.wrStatus v

/-- Each decoded encoding belongs to the row of its instruction: the encoding of the instruction does, and the data of
a read play no part. -/
theorem rowMatches_of_decode {x : Encoding} {i : Instr} (h : decode x = .ok i) : rowMatches (opcodeRow i) x = true := by
  obtain ⟨hrow, -⟩ := encoding_in_table i
  cases x with
  | command v => rwa [encode_of_decode_command h] at hrow
  | access a => rwa [encode_of_decodeAccess h, rowMatches_spelled] at hrow

/-- Two masked patterns of one word have the same bits where both masks are set. -/
theorem patterns_agree_of_masked {v mask mask' pattern pattern' : Word} (h : v &&& mask = pattern)
    (h' : v &&& mask' = pattern') : pattern &&& mask' = pattern' &&& mask := by
  rw [← h, ← h', BitVec.and_assoc, BitVec.and_assoc, BitVec.and_comm mask]

/-- Two rows that one encoding matches fix the same direction, and the same values where both fix a bit. -/
theorem rows_agree_of_rowMatches {r r' : OpcodeRow} {x : Encoding} (h : rowMatches r x = true)
    (h' : rowMatches r' x = true) : r.dir = r'.dir ∧ r.pattern &&& r'.mask = r'.pattern &&& r.mask := by
  cases x with
  | command v =>
    simp only [rowMatches, Bool.and_eq_true, beq_iff_eq] at h h'
    exact ⟨h.left.trans h'.left.symm, patterns_agree_of_masked h.right h'.right⟩
  | access a =>
    simp only [rowMatches, Bool.and_eq_true, beq_iff_eq] at h h'
    obtain ⟨⟨hdir, -⟩, hbits⟩ := h
    obtain ⟨⟨hdir', -⟩, hbits'⟩ := h'
    exact ⟨hdir.trans hdir'.symm, patterns_agree_of_masked hbits hbits'⟩

/-- No two rows of the table agree where both fix something. -/
theorem opcodeTable_pairwise_disagree : opcodeTable.Pairwise fun r r' =>
    ¬(r.dir = r'.dir ∧ r.pattern &&& r'.mask = r'.pattern &&& r.mask) := by
  decide

/-- The rows of command words fix all 32 bits. -/
theorem commandRow_fixes_word : ∀ row ∈ opcodeTable, row.dir = none →
    row.mask = BitVec.allOnes 32 ∧ (row.pattern = 1 ∨ row.pattern = 2 ∨ row.pattern = 3) := by
  decide

theorem decode_command_of_rowMatches {row : OpcodeRow} {v : Word} (hrow : row ∈ opcodeTable)
    (h : rowMatches row (.command v) = true) : ∃ i, decode (.command v) = .ok i := by
  simp only [rowMatches, Bool.and_eq_true, beq_iff_eq] at h
  obtain ⟨hdir, hbits⟩ := h
  obtain ⟨hmask, hpattern⟩ := commandRow_fixes_word row hrow hdir
  rw [hmask, BitVec.and_allOnes] at hbits
  subst hbits
  obtain h | h | h := hpattern <;> rw [h] <;> exact ⟨_, rfl⟩

/-- A field of an offset whose bits a row fixes has the row's value. -/
theorem extractLsb'_of_masked {off : BitVec 12} {mask pattern : Word} (h : off.setWidth 32 &&& mask = pattern)
    (start len : Nat) (hmask : mask.extractLsb' start len = BitVec.allOnes len) (hlen : start + len ≤ 32) :
    off.extractLsb' start len = pattern.extractLsb' start len := by
  rw [← h, BitVec.extractLsb'_and, hmask, BitVec.and_allOnes, BitVec.extractLsb'_setWidth_of_le hlen]

/-- At an aligned offset one field is enough for a read to have a meaning: those of the four arrays, and `STATUS`
(R51). An offset that an earlier array of the map claims is readable all the same, and neither `CMD` nor a hole is
left. -/
theorem decode_read_of_fields {off : BitVec 12} (d : Word) (halign : off.extractLsb' 0 2 = 0)
    (h : off.extractLsb' 9 3 = 0 ∨ off.extractLsb' 5 7 = 0x10 ∨ off.extractLsb' 7 5 = 0x5 ∨ off.extractLsb' 7 5 = 0x6 ∨
      off = 0x384) : ∃ i, decode (.access ⟨.read, 32, off, d⟩) = .ok i := by
  have hreg : ∃ r, regAt off = .ok r ∧ ∃ i, decodeRead r = .ok i := by
    unfold regAt
    rw [if_neg (not_not.2 halign)]
    split_ifs <;> simp_all [decodeRead]
  obtain ⟨r, hr, i, hi⟩ := hreg
  exact ⟨i, by simpa [decode, decodeAccess, hr] using hi⟩

/-- The same for a write: three of the arrays, `CMD` and `STATUS` (R51). -/
theorem decode_write_of_fields {off : BitVec 12} (v : Word) (halign : off.extractLsb' 0 2 = 0)
    (h : off.extractLsb' 9 3 = 0 ∨ off.extractLsb' 5 7 = 0x10 ∨ off.extractLsb' 7 5 = 0x5 ∨ off = 0x380 ∨ off = 0x384) :
    ∃ i, decode (.access ⟨.write, 32, off, v⟩) = .ok i := by
  have hreg : ∃ r, regAt off = .ok r ∧ ∃ i, decodeWrite v r = .ok i := by
    obtain h | h | h | rfl | rfl := h
    case inr.inr.inr.inl => exact ⟨.cmd, rfl, _, rfl⟩
    case inr.inr.inr.inr => exact ⟨.status, rfl, _, rfl⟩
    all_goals
      unfold regAt
      rw [if_neg (not_not.2 halign)]
      split_ifs <;> simp_all [decodeWrite]
  obtain ⟨r, hr, i, hi⟩ := hreg
  exact ⟨i, by simpa [decode, decodeAccess, hr] using hi⟩

/-- A row of accesses fixes the alignment and the field of its array, or the whole offset. -/
theorem decode_access_of_rowMatches {row : OpcodeRow} {a : Access} (hrow : row ∈ opcodeTable)
    (h : rowMatches row (.access a) = true) : ∃ i, decode (.access a) = .ok i := by
  obtain ⟨dir, width, off, v⟩ := a
  simp only [rowMatches, Bool.and_eq_true, beq_iff_eq] at h
  obtain ⟨⟨hdir, rfl⟩, hbits⟩ := h
  have field := extractLsb'_of_masked hbits
  have whole (hmask : row.mask.extractLsb' 0 12 = BitVec.allOnes 12) : off = row.pattern.extractLsb' 0 12 := by
    simpa using field 0 12 hmask (by decide)
  simp only [opcodeTable, opcodeRow, List.mem_cons, List.not_mem_nil, or_false] at hrow
  obtain rfl | rfl | rfl | rfl | rfl | rfl | rfl | rfl | rfl | rfl | rfl | rfl | rfl := hrow <;> cases hdir
  · exact decode_read_of_fields v (field 0 2 rfl (by decide)) (.inl (field 9 3 rfl (by decide)))
  · exact decode_write_of_fields v (field 0 2 rfl (by decide)) (.inl (field 9 3 rfl (by decide)))
  · exact decode_read_of_fields v (field 0 2 rfl (by decide)) (.inr (.inl (field 5 7 rfl (by decide))))
  · exact decode_write_of_fields v (field 0 2 rfl (by decide)) (.inr (.inl (field 5 7 rfl (by decide))))
  · exact decode_read_of_fields v (field 0 2 rfl (by decide)) (.inr (.inr (.inl (field 7 5 rfl (by decide)))))
  · exact decode_write_of_fields v (field 0 2 rfl (by decide)) (.inr (.inr (.inl (field 7 5 rfl (by decide)))))
  · exact decode_read_of_fields v (field 0 2 rfl (by decide)) (.inr (.inr (.inr (.inl (field 7 5 rfl (by decide))))))
  · exact decode_write_of_fields v (field 0 2 rfl (by decide)) (.inr (.inr (.inr (.inl (whole rfl)))))
  · exact decode_read_of_fields v (field 0 2 rfl (by decide)) (.inr (.inr (.inr (.inr (whole rfl)))))
  · exact decode_write_of_fields v (field 0 2 rfl (by decide)) (.inr (.inr (.inr (.inr (whole rfl)))))

/-- Settles O4: a decoded encoding matches the row of its instruction; a row that matches is that of a command word or
of a register's offset; and no two rows can match the same encoding, since they fix something differently. -/
theorem decoderAgreesWithOpcodeTable : Obligations.DecoderAgreesWithOpcodeTable := by
  refine ⟨fun x => ⟨fun ⟨i, hi⟩ => ?_, fun ⟨row, hrow, hmatch⟩ => ?_⟩, fun x i => rowMatches_of_decode, fun x => ?_⟩
  · obtain ⟨-, hmem, -⟩ := encoding_in_table i
    exact ⟨opcodeRow i, hmem, rowMatches_of_decode hi⟩
  · cases x with
    | command v => exact decode_command_of_rowMatches hrow hmatch
    | access a => exact decode_access_of_rowMatches hrow hmatch
  · exact opcodeTable_pairwise_disagree.imp fun hne ⟨h, h'⟩ => hne (rows_agree_of_rowMatches h h')

end Sys2Proof
end

section
/-! PROOFS. What one step does to `ERR`, to the lengths and to the host's further actions (R27, R190, R199, R220,
R232). -/

namespace Sys2Proof.Machine

open Sys2Proof.Safety

/-! ### One step -/

/-- What holds of every pending action still holds of those that a step leaves. -/
theorem forall_pending_of_step {P : HostAction → Prop} {s t : State} (h : step s = .next t)
    (hs : ∀ x ∈ s.pending, P x) : ∀ x ∈ t.pending, P x := by
  obtain ⟨u, hu, hpending⟩ := step_progress s
  cases hu.symm.trans h
  intro x hx
  rw [hpending] at hx
  exact hs x (List.mem_of_mem_tail hx)

/-- Settles O6: an access is performed as `exec` of what it decodes to (R65), and the write of a command word as the
instruction of its operation (R60). -/
theorem stepRunsDecodedAccess : Obligations.StepRunsDecodedAccess := by
  refine ⟨fun s a rest i hp hd => step_of_ok hp hd, fun s v rest i hp hd => ?_⟩
  rw [step_of_ok hp (decode_writeAt_regOffset .cmd v), exec_wrCmd_of_decode hd]

/-- Settles O7 (R207, R234). -/
theorem idleStepChangesNothing : Obligations.IdleStepChangesNothing := fun _ => step_of_idle

/-- Settles O44 (R36, R220). -/
theorem resetClearsErr : Obligations.ResetClearsErr :=
  ⟨rfl, rfl, fun _ _ hp => ⟨_, step_of_reset hp, rfl, rfl, rfl⟩⟩

/-! ### What clears the error -/

/-- Of all instructions only the host's acknowledgement clears the error (R62, R198). -/
theorem exec_clears_err {i : Instr} {s t : State} (h : exec i s = .next t) (hs : s.eng.err = true)
    (ht : t.eng.err = false) : ∃ v, i = .wrStatus v ∧ v.toNat % 2 = 1 := by
  have built (hb : exec .buildBlocks s = .next t) : False := by
    cases hb
    exact Bool.false_ne_true (ht.symm.trans (s.eng.buildAll_err_iff.2 (.inl hs)))
  obtain rfl | rfl | ⟨v, rfl⟩ := (exec_effect h).writer_of_err_ne (by simp [hs, ht])
  · exact (built h).elim
  · exact (built ((exec_wrCmd_one s).symm.trans h)).elim
  · refine ⟨v, rfl, ?_⟩
    by_contra heven
    rw [exec_wrStatus, State.onEngine, Engine.writeStatus_of_even _ (by omega)] at h
    cases h
    simp [hs] at ht

/-- Settles O39: an idle step and a reserved access keep `ERR`, a reset clears it, and of the instructions only the
write of `STATUS` with bit 0 set does (R27, R199, R220). -/
theorem errIsClearedOnlyByHostOrReset : Obligations.ErrIsClearedOnlyByHostOrReset := by
  intro s t hs hstep
  constructor
  · intro ht
    obtain ⟨-, h⟩ | ⟨rest, hp, -⟩ | ⟨a, rest, i, hp, hd, h⟩ | ⟨a, rest, e, -, -, h⟩ := step_cases s
    · cases h.symm.trans hstep
      simp [hs] at ht
    · exact .inl ⟨rest, hp⟩
    · obtain ⟨v, rfl, hodd⟩ := exec_clears_err (h.symm.trans hstep) hs ht
      exact .inr ⟨a, rest, v, hp, hd, hodd⟩
    · cases h.symm.trans hstep
      simp [hs] at ht
  · rintro (⟨rest, hp⟩ | ⟨a, rest, v, hp, hd, hodd⟩)
    · cases (step_of_reset hp).symm.trans hstep
      rfl
    · have hclear := step_of_ok hp hd
      rw [exec_wrStatus, State.onEngine, Engine.writeStatus_of_odd _ hodd] at hclear
      cases hclear.symm.trans hstep
      rfl

/-! ### While lengths are short -/

/-- A step changes the lengths only by a reset and by the host's write of one (R35, R36). -/
theorem step_len_cases {s t : State} (h : step s = .next t) :
    t.eng.len = s.eng.len ∨ (∃ rest, s.pending = .reset :: rest) ∨
      ∃ a rest j v, s.pending = .access a :: rest ∧ decodeAccess a = .ok (.wrLen j v) ∧
        t.eng.len = (s.eng.setLen j v).len := by
  obtain ⟨-, hs⟩ | ⟨rest, hp, -⟩ | ⟨a, rest, i, hp, hd, hs⟩ | ⟨a, rest, e, -, -, hs⟩ := step_cases s
  · cases hs.symm.trans h
    exact .inl rfl
  · exact .inr (.inl ⟨rest, hp⟩)
  · have hexec := hs.symm.trans h
    by_cases hlen : t.eng.len = s.eng.len
    · exact .inl hlen
    · obtain ⟨j, v, rfl⟩ := (exec_effect hexec).writer_of_len_ne hlen
      cases hexec
      exact .inr (.inr ⟨a, rest, j, v, hp, hd, rfl⟩)
  · cases hs.symm.trans h
    exact .inl (by simp)

/-- Settles O45: `ERR` is raised only where a length is too long (`exec_sets_err`), and the lengths change only by
actions that the premise on the host excludes or bounds (R222, R232). -/
theorem shortLengthsAreKept : Obligations.ShortLengthsAreKept := by
  rintro s t ⟨hclear, hshort, hhost⟩ hstep
  refine ⟨Bool.eq_false_of_not_eq_true fun ht => ?_, fun l => ?_, forall_pending_of_step hstep hhost⟩
  · obtain ⟨a, rest, i, -, -, hexec⟩ := step_sets_err hstep hclear ht
    obtain ⟨-, j, hlong⟩ := exec_sets_err hexec hclear ht
    exact (hshort j).not_ge hlong
  · have hl : s.eng.len[l].toNat < 56 := hshort l
    rw [Engine.length]
    obtain hlen | ⟨rest, hp⟩ | ⟨a, rest, j, v, hp, hd, hlen⟩ := step_len_cases hstep
    · rwa [hlen]
    · have := hhost .reset (by simp [hp])
      simp [keepsLengthsShort] at this
    · have hv : v.toNat ≤ Config.LMAX := by
        have := hhost (.access a) (by simp [hp])
        simpa [keepsLengthsShort, decode, hd] using this
      rw [hlen, Engine.getElem_setLen]
      split
      · exact Nat.lt_succ_of_le hv
      · exact hl

/-! ### Without `build_blocks` -/

/-- Settles O46: a step that raises `ERR` writes the command word 1, which the premise on the host excludes (R190). -/
theorem neverBuildsIsKept : Obligations.NeverBuildsIsKept := by
  rintro s t ⟨hclear, hhost⟩ hstep
  refine ⟨Bool.eq_false_of_not_eq_true fun ht => ?_, forall_pending_of_step hstep hhost⟩
  obtain ⟨⟨a, rest, hp, hd⟩, -⟩ := (errIsSetOnlyByTooLongBuild s t hclear hstep).1 ht
  have := hhost (.access a) (by simp [hp])
  simp [buildsNothing, hd] at this

/-- Settles O47 (R36). -/
theorem neverBuildsAtReset : Obligations.NeverBuildsAtReset := ⟨rfl, nofun⟩

end Sys2Proof.Machine
end

section
/-! PROOFS. Reserved actions (R63, R86) in the machine and in the strict machine, reads (R64), and runs: to
the end of a script (R234), of the strict machine beside the machine, and of several engines (R205). -/

namespace Sys2Proof.Machine

open Sys2Proof.Safety

/-! ### Reserved accesses -/

/-- The offsets and directions of R63: no register of the map answers there. -/
theorem not_reserved_of_decodeAccess {a : Access} {i : Instr} (h : decodeAccess a = .ok i) :
    ¬(a.width ≠ 32 ∨ a.off.toNat % 4 ≠ 0 ∨ (0x220 ≤ a.off.toNat ∧ a.off.toNat ≤ 0x27F) ∨ 0x388 ≤ a.off.toNat ∨
      (a.dir = .write ∧ 0x300 ≤ a.off.toNat ∧ a.off.toNat ≤ 0x37F) ∨ (a.dir = .read ∧ a.off.toNat = 0x380)) := by
  obtain ⟨hwidth, r, hreg, hdir⟩ := decodeAccess_ok h
  rw [← regOffset_of_regAt hreg]
  have sel (w : WordSel) : wordSelIndex w < 4 := by cases w <;> decide
  cases r with
  | blkw j n =>
    simp only [regOffset, BitVec.toNat_ofNat]
    omega
  | len j =>
    simp only [regOffset, BitVec.toNat_ofNat]
    omega
  | v j w =>
    have := sel w
    simp only [regOffset, BitVec.toNat_ofNat]
    omega
  | p j w =>
    have := sel w
    have hread : a.dir = .read := by
      obtain ⟨hr, -⟩ | ⟨-, hw⟩ := hdir
      · exact hr
      · cases hw
    simp only [regOffset, BitVec.toNat_ofNat, hread, reduceCtorEq, eq_self, false_and, false_or, true_and]
    omega
  | cmd =>
    have hwrite : a.dir = .write := by
      obtain ⟨-, hr⟩ | ⟨hw, -⟩ := hdir
      · cases hr
      · exact hw
    simp [regOffset, hwidth, hwrite]
  | status => simp [regOffset, hwidth]

/-- What a reserved access answers (R63): a read one value, a write none. -/
theorem reads_reservedAccess (s : State) (d : Dir) :
    (d = .write → (s.reservedAccess d).reads = s.reads) ∧ (d = .read → ∃ v, (s.reservedAccess d).reads = v :: s.reads) := by
  cases d with
  | read => exact ⟨nofun, fun _ => ⟨_, rfl⟩⟩
  | write => exact ⟨fun _ => rfl, nofun⟩

/-! ### Reads -/

theorem isRead_of_decodeRead {r : Reg} {i : Instr} (h : decodeRead r = .ok i) : IsRead i := by
  cases r <;> cases h <;> simp [IsRead]

/-- A read returns one value and changes nothing else (R64). -/
theorem exec_of_isRead {i : Instr} (h : IsRead i) (s : State) : ∃ v, exec i s = .next (s.deliver v) := by
  obtain ⟨j, n, rfl⟩ | ⟨j, rfl⟩ | ⟨j, w, rfl⟩ | ⟨j, w, rfl⟩ | rfl := h <;> exact ⟨_, rfl⟩

/-! ### The strict machine -/

theorem strictStep_of_reserved {s : State} {x : HostAction} {rest : Script} {r : Refusal} (hp : s.pending = x :: rest)
    (h : reservedUse x = some r) : strictStep s = .refused r := by
  simp [strictStep, hp, h]

theorem strictStep_of_not_reserved {s : State} (h : ∀ x ∈ s.pending, reservedUse x = none) : strictStep s = step s := by
  unfold strictStep
  split
  next => rfl
  next x rest hp => rw [h x (by simp [hp])]

/-- A write to `CMD` is well formed when its word is a command (R82, R86). -/
theorem wf_wrCmd_iff {v : Word} : (Instr.wrCmd v).wf = true ↔ ∃ c, decode (.command v) = .ok c := by
  obtain ⟨rfl, -⟩ | ⟨rfl, -⟩ | ⟨rfl, -⟩ | ⟨h1, h2, h3, hreserved⟩ := decodeCommand_cases v
  · exact iff_of_true rfl ⟨_, rfl⟩
  · exact iff_of_true rfl ⟨_, rfl⟩
  · exact iff_of_true rfl ⟨_, rfl⟩
  · refine iff_of_false (by simpa [Instr.wf] using ⟨⟨h1, h2⟩, h3⟩) fun ⟨c, hc⟩ => ?_
    cases (decode_command_of_reserved hreserved).symm.trans hc

/-- Only the write of a word that is no command is ill formed (R86). -/
theorem not_wf_iff {i : Instr} : ¬ i.wf = true ↔ ∃ v, i = .wrCmd v ∧ ∀ c, decode (.command v) ≠ .ok c := by
  constructor
  · intro h
    cases i with
    | wrCmd v => exact ⟨v, rfl, fun c hc => h (wf_wrCmd_iff.2 ⟨c, hc⟩)⟩
    | _ => exact absurd rfl h
  · rintro ⟨v, rfl, h⟩ hwf
    obtain ⟨c, hc⟩ := wf_wrCmd_iff.1 hwf
    exact h c hc

theorem reservedUse_of_error {a : Access} {e : DecodeError} (h : decode (.access a) = .error e) :
    reservedUse (.access a) = some (.reservedAccess e) := by
  simp [reservedUse, h]

theorem reservedUse_of_ok {a : Access} {i : Instr} (h : decode (.access a) = .ok i) :
    reservedUse (.access a) = if i.wf then none else some (.reservedCommand a.data) := by
  simp [reservedUse, h]

/-- What is refused: an access that decodes to nothing, or to the write of a word that decodes to nothing (R63, R86).
-/
theorem reservedUse_access_iff (a : Access) :
    (∃ r, reservedUse (.access a) = some r) ↔
      ∀ i, decode (.access a) = .ok i → ∃ v : Word, i = .wrCmd v ∧ ∀ c, decode (.command v) ≠ .ok c := by
  cases hd : decode (.access a) with
  | error e => exact iff_of_true ⟨_, reservedUse_of_error hd⟩ nofun
  | ok i => simp [reservedUse_of_ok hd, ← not_wf_iff]

/-- The strict machine refuses what is reserved and nothing else, since no step stops (R233). -/
theorem strictStep_refuses_iff {s : State} {x : HostAction} {rest : Script} (hp : s.pending = x :: rest) :
    (∃ r, strictStep s = .refused r) ↔ ∃ r, reservedUse x = some r := by
  constructor
  · rintro ⟨r, hr⟩
    by_contra hnone
    obtain ⟨t, ht, -⟩ := step_progress s
    have hx : reservedUse x = none := by simpa [Option.eq_none_iff_forall_ne_some] using hnone
    simp [strictStep, hp, hx, ht] at hr
  · rintro ⟨r, hr⟩
    exact ⟨r, strictStep_of_reserved hp hr⟩

/-! ### The statements -/

/-- Settles O8: such an access decodes to nothing (`not_reserved_of_decodeAccess`), and the machine performs it as
`reservedAccess`, the strict machine refuses it (R63). -/
theorem reservedAccessesChangeNothing : Obligations.ReservedAccessesChangeNothing := by
  intro s a rest hp hreserved
  cases hd : decodeAccess a with
  | ok i => exact absurd hreserved (not_reserved_of_decodeAccess hd)
  | error e =>
    obtain ⟨hwrite, hread⟩ := reads_reservedAccess { s with pending := rest } a.dir
    exact ⟨⟨_, step_of_error hp hd, State.reservedAccess_eng .., State.reservedAccess_pending .., hwrite, hread⟩,
      e, strictStep_of_reserved hp (reservedUse_of_error hd)⟩

/-- Settles O9: of the four cases of `decodeCommand` the last is left, and the command does nothing then (R86). -/
theorem reservedCommandWordsChangeNothing : Obligations.ReservedCommandWordsChangeNothing := by
  intro s v h1 h2 h3
  have hcommand : Engine.command v s.eng = s.eng := by
    have := s.eng.command_cases v
    simp_all
  have hdecode : decode (.command v) = .error .reservedCommand := by
    refine decode_command_of_reserved ?_
    have := decodeCommand_cases v
    simp_all
  have hwf : ¬ (Instr.wrCmd v).wf = true := not_wf_iff.2 ⟨v, rfl, by simp [hdecode]⟩
  refine ⟨hdecode, by rw [exec_wrCmd, State.onEngine, hcommand], fun rest hp => strictStep_of_reserved hp ?_⟩
  exact (reservedUse_of_ok (decode_writeAt_regOffset .cmd v)).trans (if_neg hwf)

/-- Settles O10: the strict machine refuses what `reservedUse` names, and is `step` on the rest (U2, U3). -/
theorem strictStepRefusesOnlyReservedActions : Obligations.StrictStepRefusesOnlyReservedActions := by
  intro s x rest hp
  constructor
  · rw [strictStep_refuses_iff hp]
    cases x with
    | reset => simp [reservedUse]
    | access a => simp only [reservedUse_access_iff, HostAction.access.injEq, exists_eq_left']
  · cases hx : reservedUse x with
    | some r => exact .inl ⟨r, strictStep_of_reserved hp hx⟩
    | none => exact .inr (by simp [strictStep, hp, hx])

/-- Settles O19: a read that decodes performs one of the reads of the window, which return a value and change nothing
else; one that does not is a reserved read (R63, R64). -/
theorem readsHaveNoSideEffect : Obligations.ReadsHaveNoSideEffect := by
  intro s a rest hp hread
  cases hd : decodeAccess a with
  | error e =>
    have hstep := step_of_error hp hd
    rw [hread, State.reservedAccess_read] at hstep
    exact ⟨_, _, hstep, rfl, rfl, rfl⟩
  | ok i =>
    obtain ⟨-, r, -, ⟨-, hr⟩ | ⟨hwrite, -⟩⟩ := decodeAccess_ok hd
    · obtain ⟨v, hv⟩ := exec_of_isRead (isRead_of_decodeRead hr) { s with pending := rest }
      exact ⟨_, v, (step_of_ok hp hd).trans hv, rfl, rfl, rfl⟩
    · cases hread.symm.trans hwrite

/-! ### Runs -/

/-- A run of `n` steps goes through and performs the `n` oldest pending actions (R234). -/
theorem run_progress (n : Nat) (s : State) :
    ∃ t, Host.Core.run Sys2Proof.core n s = .next t ∧ t.pending = s.pending.drop n := by
  induction n generalizing s with
  | zero => exact ⟨s, rfl, rfl⟩
  | succ n ih =>
    obtain ⟨u, hu, hpending⟩ := step_progress s
    obtain ⟨t, ht, hrest⟩ := ih u
    refine ⟨t, ?_, ?_⟩
    · rw [Nat.add_comm, run_add n (run_one hu), ht]
    · rw [hrest, hpending, List.drop_tail]

/-- Settles O48: as many steps as there are pending actions perform them all (R233, R234). -/
theorem everyRunCompletes : Obligations.EveryRunCompletes := by
  intro s
  obtain ⟨t, ht, hpending⟩ := run_progress s.pending.length s
  exact ⟨t, ht, by rw [hpending, List.drop_length]⟩

/-- Settles O49: while nothing pending is reserved both machines make the same step, after which nothing pending is
reserved still (R235, premise 4). -/
theorem definedRunsAreNeverRefused : Obligations.DefinedRunsAreNeverRefused := by
  intro n
  induction n with
  | zero => exact fun s _ => ⟨s, rfl, rfl⟩
  | succ n ih =>
    intro s hs
    obtain ⟨u, hu, -⟩ := step_progress s
    obtain ⟨t, hstrict, ht⟩ := ih u (forall_pending_of_step hu hs)
    have hstep : strictCore.step s = .next u := (strictStep_of_not_reserved hs).trans hu
    refine ⟨t, ?_, ?_⟩
    · simp only [Host.Core.run, hstep]
      exact hstrict
    · rw [Nat.add_comm, run_add n (run_one hu), ht]

/-! ### Several engines -/

theorem Platform.stepAt_of_none {p : Platform} {n : Nat} (h : p[n]? = none) : p.stepAt n = p := by
  simp [Platform.stepAt, h]

theorem Platform.stepAt_of_some {p : Platform} {n : Nat} {s t : State} (h : p[n]? = some s) (hs : step s = .next t) :
    p.stepAt n = p.set n t := by
  simp [Platform.stepAt, h, hs]

/-- R205: a step at position `m` leaves what stands at the other positions. -/
theorem Platform.getElem?_stepAt_of_ne (p : Platform) {m n : Nat} (h : m ≠ n) : (p.stepAt m)[n]? = p[n]? := by
  cases hm : p[m]? with
  | none => rw [Platform.stepAt_of_none hm]
  | some s =>
    obtain ⟨t, ht, -⟩ := step_progress s
    rw [Platform.stepAt_of_some hm ht, List.getElem?_set_ne h]

/-- Steps at different positions commute: each finds at its position what it would have found first. -/
theorem Platform.stepAt_comm (p : Platform) {m n : Nat} (h : m ≠ n) : (p.stepAt m).stepAt n = (p.stepAt n).stepAt m := by
  cases hm : p[m]? with
  | none =>
    have hm' : (p.stepAt n)[m]? = none := (p.getElem?_stepAt_of_ne h.symm).trans hm
    rw [Platform.stepAt_of_none hm, Platform.stepAt_of_none hm']
  | some s =>
    obtain ⟨t, ht, -⟩ := step_progress s
    have hm' : (p.stepAt n)[m]? = some s := (p.getElem?_stepAt_of_ne h.symm).trans hm
    rw [Platform.stepAt_of_some hm' ht]
    have hm'' := Platform.stepAt_of_some hm ht
    cases hn : p[n]? with
    | none =>
      have hn' : (p.stepAt m)[n]? = none := (p.getElem?_stepAt_of_ne h).trans hn
      rw [Platform.stepAt_of_none hn', Platform.stepAt_of_none hn, hm'']
    | some u =>
      obtain ⟨v, hv, -⟩ := step_progress u
      have hn' : (p.stepAt m)[n]? = some u := (p.getElem?_stepAt_of_ne h).trans hn
      rw [Platform.stepAt_of_some hn' hv, Platform.stepAt_of_some hn hv, hm'', List.set_comm _ _ h]

/-- Settles O50 (R66, R205). -/
theorem stepOfOneInstanceLeavesTheOthers : Obligations.StepOfOneInstanceLeavesTheOthers := by
  refine fun p m => ⟨fun n hne => ⟨p.getElem?_stepAt_of_ne hne, p.stepAt_comm hne⟩, fun s hs => ?_⟩
  obtain ⟨t, ht, -⟩ := step_progress s
  refine ⟨t, ht, ?_⟩
  rw [Platform.stepAt_of_some hs ht, List.getElem?_set_self (List.getElem?_eq_some_iff.1 hs).1]

end Sys2Proof.Machine
end

section
/-! PROOFS. The Block Builder's length words and its second run (R105, R109), the compression's two forms and its
tables (R125, R126, R129), and the source's first scenarios. -/

namespace Sys2Proof.Machine

/-! ### Words of a built block -/

theorem toNat_blockWord (b : Block) (i : Fin 16) :
    (blockWord b i).toNat = b[4 * i.val].toNat + 2 ^ 8 * b[4 * i.val + 1].toNat + 2 ^ 16 * b[4 * i.val + 2].toNat +
      2 ^ 24 * b[4 * i.val + 3].toNat :=
  toNat_le32 ..

/-- Settles O21: bytes 56 to 63 are the bit length, of at most 440, in little-endian order (R101, R105). -/
theorem builtBlockLengthWords : Obligations.BuiltBlockLengthWords := by
  intro msg b hb
  have hlen : msg.length < 56 := (buildBlock_eq_some_iff.1 hb).1
  obtain ⟨-, -, -, hbits⟩ := builtBlockInvariants.2 msg b hb
  have byte (k : Nat) (h56 : 56 ≤ k) (hk : k < 64) : b[k].toNat = 8 * msg.length / 2 ^ (8 * (k - 56)) % 2 ^ 8 :=
    hbits ⟨k, hk⟩ h56
  constructor
  · have word : (blockWord b 14).toNat =
        b[56].toNat + 2 ^ 8 * b[57].toNat + 2 ^ 16 * b[58].toNat + 2 ^ 24 * b[59].toNat :=
      toNat_blockWord b 14
    rw [word, byte 56, byte 57, byte 58, byte 59] <;> omega
  · have word : (blockWord b 15).toNat =
        b[60].toNat + 2 ^ 8 * b[61].toNat + 2 ^ 16 * b[62].toNat + 2 ^ 24 * b[63].toNat :=
      toNat_blockWord b 15
    apply BitVec.eq_of_toNat_eq
    change _ = 0
    rw [word, byte 60, byte 61, byte 62, byte 63] <;> omega

/-! ### Building what is built -/

/-- Padding a block that is padded already rewrites the same bytes (R106). -/
theorem padInPlace_of_padded {b : Block} {L : Nat} (h : ∀ k : Fin 64, L ≤ k.val → b[k] = padByte L k) :
    padInPlace b L = b := by
  ext k hk : 1
  have hget := padInPlace_get b L ⟨k, hk⟩
  split at hget
  next => exact hget
  next hL => exact hget.trans (h ⟨k, hk⟩ (not_lt.1 hL)).symm

theorem Engine.setBlocks_block (e : Engine) : e.setBlocks e.block = e := by
  have : (Vector.ofFn fun j : Lane => e.block j) = e.blk := by
    ext j hj : 1
    simp [Engine.block]
  rw [Engine.setBlocks, this]

/-- `build_blocks` changes nothing where every block is padded at its lane's length. -/
theorem Engine.buildAll_of_padded {e : Engine} (hshort : ∀ j : Lane, e.length j < 56)
    (hpad : ∀ j : Lane, padInPlace (e.block j) (e.length j) = e.block j) : e.buildAll = e := by
  rw [Engine.buildAll_of_short hshort]
  simp only [hpad]
  exact e.setBlocks_block

/-- Settles O25: the blocks that `build_blocks` leaves are padded at the lengths it keeps (R109). -/
theorem buildBlocksIsIdempotent : Obligations.BuildBlocksIsIdempotent := by
  intro s hshort
  refine ⟨_, exec_buildBlocks s, ?_⟩
  have hpadded : s.eng.buildAll.buildAll = s.eng.buildAll := by
    have hlen (j : Lane) : s.eng.buildAll.length j = s.eng.length j := by simp [Engine.length]
    refine Engine.buildAll_of_padded (fun j => (hlen j).trans_lt (hshort j)) fun j => ?_
    rw [hlen, Engine.buildAll_of_short hshort, Engine.block_setBlocks]
    exact padInPlace_of_padded fun k => padInPlace_get_of_le _
  rw [exec_buildBlocks, State.onEngine, State.onEngine_eng, hpadded]
  rfl

/-! ### The compression -/

/-- One round in both forms: the roles of the next round are the rotated words (the table of R129). -/
theorem round_roleOrder (m : Vector Word 16) (r : Nat) (q : Quad) :
    round m r (roleOrder r q) = roleOrder (r + 1) (namedRound m r q) := by
  have hcases : r % 4 = 0 ∨ r % 4 = 1 ∨ r % 4 = 2 ∨ r % 4 = 3 := by omega
  obtain h | h | h | h := hcases <;> simp [round, roleOrder, namedRound, Nat.add_mod, h]

theorem rounds_eq_roleOrder_namedRounds (m : Vector Word 16) (n : Nat) :
    rounds m n = roleOrder n (namedRounds m n) := by
  induction n with
  | zero => rfl
  | succ n ih => rw [rounds, ih, round_roleOrder, namedRounds]

/-- Before round 64, as before round 0, each word plays its own role (R129). -/
theorem roleOrder_64 (q : Quad) : roleOrder 64 q = q := rfl

/-- Settles O29: after 64 rounds the roles are the words themselves (R129). -/
theorem rotatingFormEqualsNamedForm : Obligations.RotatingFormEqualsNamedForm := by
  refine ⟨rounds_eq_roleOrder_namedRounds, fun b => ?_⟩
  rw [compress1, rounds_eq_roleOrder_namedRounds, roleOrder_64]

/-- Settles O28: both lists are evaluated (R125, R126). -/
theorem roundTablesByGroup : Obligations.RoundTablesByGroup := by
  unfold Obligations.RoundTablesByGroup
  decide

/-- Settles O31: `compress` reads the blocks and `expand_hex` the words, which they leave (R64, R135, R170). -/
theorem compressAndExpandAreIdempotent : Obligations.CompressAndExpandAreIdempotent := fun s =>
  ⟨⟨_, exec_compress s, rfl⟩, _, exec_expandHex s, rfl⟩

/-- Settles O32: both blocks are built and compressed by evaluation (E1, E2). -/
theorem knownDigests : Obligations.KnownDigests := by
  unfold Obligations.KnownDigests
  decide +kernel

end Sys2Proof.Machine
end

section
/-! PROOFS. The Digest Consumer: the presented words, the hex text and the zero-nibble predicate as views of the same
digest bytes (R162 to R169), and the rebuilding of an expanded block (R226). -/

namespace Sys2Proof.Machine

/-! ### Presented words -/

theorem toNat_bswap32 (x : Word) : (bswap32 x).toNat =
    (byteOf x 0).toNat * 2 ^ 24 + (byteOf x 1).toNat * 2 ^ 16 + (byteOf x 2).toNat * 2 ^ 8 + (byteOf x 3).toNat := by
  rw [bswap32, toNat_le32]
  omega

theorem exists_wordSelIndex_eq {n : Nat} (h : n < 4) : ∃ w, wordSelIndex w = n :=
  match n with
  | 0 => ⟨.a, rfl⟩
  | 1 => ⟨.b, rfl⟩
  | 2 => ⟨.c, rfl⟩
  | 3 => ⟨.d, rfl⟩

/-- R161: digest byte `4w + k` is byte `k` of word `w`. -/
theorem digestByte_eq_byteOf (q : Quad) (w : WordSel) {n : Fin 16} {k : Nat} (hk : k < 4)
    (hn : n.val = 4 * wordSelIndex w + k) : digestByte q n = byteOf (quadWord q w) k := by
  have hmod : n.val % 4 = k := by omega
  have hdiv : n.val / 4 = wordSelIndex w := by omega
  rw [digestByte, hmod, hdiv]
  cases w <;> rfl

/-- Settles O33: the byte swap puts byte `k` of the word at the `k`-th place from the top, and that byte is digest
byte `4w + k` (R161, R162). -/
theorem presentedWordFromDigestBytes : Obligations.PresentedWordFromDigestBytes := by
  intro e j w n hn n1 n2 n3 h1 h2 h3
  have byte {m : Fin 16} {k : Nat} (hk : k < 4) (hm : m.val = n.val + k) :
      digestByte (e.quad j) m = byteOf (quadWord (e.quad j) w) k := digestByte_eq_byteOf _ w hk (hm.trans (by rw [hn]))
  refine ⟨rfl, ?_⟩
  rw [byte (k := 0) (by decide) rfl, byte (by decide) h1, byte (by decide) h2, byte (by decide) h3]
  exact toNat_bswap32 _

/-! ### The hex text -/

@[simp] theorem length_hexString (q : Quad) : (hexString q).length = 32 := List.length_ofFn

theorem getD_hexString (q : Quad) {k : Nat} (h : k < 32) : (hexString q).getD k 0 = hexByte q ⟨k, h⟩ := by
  rw [List.getD_eq_getElem _ _ (by rwa [length_hexString])]
  exact List.getElem_ofFn ..

/-- R167: the trailer of the hex expansion is the padding of a message of 32 bytes, whose bit length 0x100 has the one
nonzero byte 57. -/
theorem hexExpand_get_padding (q : Quad) {k : Fin 64} (h : 32 ≤ k.val) : (hexExpand q)[k] = padByte 32 k := by
  have trailer : ∀ k : Fin 64, 32 ≤ k.val →
      padByte 32 k = if k.val = 32 then 0x80 else if k.val = 57 then 0x01 else 0x00 := by decide
  rw [hexExpand_get, dif_neg h.not_gt, trailer k h]

/-- R169: the hex expansion is the built block of the hex string. -/
theorem buildBlock_hexString (q : Quad) : buildBlock (hexString q) = some (hexExpand q) := by
  rw [buildBlock_eq_some_iff, length_hexString]
  refine ⟨by decide, fun k => ?_⟩
  split
  next h => rw [hexExpand_get_of_lt q h, getD_hexString q h]
  next h => exact hexExpand_get_padding q (not_lt.1 h)

/-- Hex digit `k` of the digest: the nibble whose character is `HEX[k]` (R165). -/
def hexDigit (q : Quad) (k : Fin 32) : Nibble :=
  if k.val % 2 = 0 then highNibble (digestByte q ⟨k.val / 2, by omega⟩)
  else lowNibble (digestByte q ⟨k.val / 2, by omega⟩)

theorem hexByte_eq_hexChar_hexDigit (q : Quad) (k : Fin 32) : hexByte q k = hexChar (hexDigit q k) := by
  simp only [hexByte, hexDigit]
  split <;> rfl

/-- Settles O36: the characters are the codes of nibbles, '0'..'9' and 'a'..'f' (R166, R169). -/
theorem hexExpansionIsBuiltBlock : Obligations.HexExpansionIsBuiltBlock := by
  refine fun q => ⟨buildBlock_hexString q, length_hexString q, fun x hx => ?_⟩
  obtain ⟨k, rfl⟩ := (List.mem_ofFn' _ _).1 hx
  have := (hexDigit q k).isLt
  rw [hexByte_eq_hexChar_hexDigit, toNat_hexChar]
  split <;> omega

/-- Settles O43: the expanded blocks are padded at length 32 already (R226). -/
theorem rebuildOfExpandedBlockAtLength32 : Obligations.RebuildOfExpandedBlockAtLength32 := by
  intro s hlen
  have hlength (j : Lane) : s.eng.expandAll.length j = 32 := by
    rw [Engine.length, Engine.expandAll_len, hlen]
    rfl
  have hpadded : s.eng.expandAll.buildAll = s.eng.expandAll := by
    refine Engine.buildAll_of_padded (fun j => (hlength j).trans_lt (by decide)) fun j => ?_
    rw [hlength, Engine.block_expandAll]
    exact padInPlace_of_padded fun k => hexExpand_get_padding _
  refine ⟨_, exec_expandHex s, ?_⟩
  rw [exec_buildBlocks, State.onEngine, State.onEngine_eng, hpadded]
  rfl

/-! ### The zero-nibble predicate -/

theorem hexChar_eq_zero_iff : ∀ v : Nibble, hexChar v = 0x30 ↔ v.toNat = 0 := by decide

/-- The number's 32-bit digits are the presented words, the first one highest (R164). -/
theorem digestNumber_word (q : Quad) (w : WordSel) :
    digestNumber q / 2 ^ (96 - 32 * wordSelIndex w) % 2 ^ 32 = (bswap32 (quadWord q w)).toNat := by
  have ha := (bswap32 q.a).isLt
  have hb := (bswap32 q.b).isLt
  have hc := (bswap32 q.c).isLt
  have hd := (bswap32 q.d).isLt
  cases w <;> simp only [digestNumber, wordSelIndex, quadWord] <;> omega

/-- The number's bytes are the digest bytes, the first one highest (R161, R164). -/
theorem digestNumber_byte (q : Quad) (n : Fin 16) :
    digestNumber q / 2 ^ (120 - 8 * n.val) % 256 = (digestByte q n).toNat := by
  obtain ⟨w, hw⟩ := exists_wordSelIndex_eq (by omega : n.val / 4 < 4)
  obtain ⟨k, hk, hn⟩ : ∃ k < 4, n.val = 4 * wordSelIndex w + k := ⟨n.val % 4, by omega, by omega⟩
  have hword := digestNumber_word q w
  rw [toNat_bswap32] at hword
  rw [digestByte_eq_byteOf q w hk hn,
    show 120 - 8 * n.val = (96 - 32 * wordSelIndex w) + (24 - 8 * k) by omega, pow_add, ← Nat.div_div_eq_div_mul]
  have h0 := (byteOf (quadWord q w) 0).isLt
  have h1 := (byteOf (quadWord q w) 1).isLt
  have h2 := (byteOf (quadWord q w) 2).isLt
  have h3 := (byteOf (quadWord q w) 3).isLt
  generalize digestNumber q / 2 ^ (96 - 32 * wordSelIndex w) = N at *
  interval_cases k <;> omega

/-- The number's hex digits are those of the hex string, the first one highest (R164, R165). -/
theorem digestNumber_hexDigit (q : Quad) (k : Fin 32) :
    digestNumber q / 2 ^ (124 - 4 * k.val) % 16 = (hexDigit q k).toNat := by
  have hbyte : digestNumber q / 2 ^ (120 - 8 * (k.val / 2)) % 256 = (digestByte q ⟨k.val / 2, by omega⟩).toNat :=
    digestNumber_byte q ⟨k.val / 2, by omega⟩
  unfold hexDigit
  split
  next heven =>
    rw [toNat_highNibble, ← hbyte, show 124 - 4 * k.val = (120 - 8 * (k.val / 2)) + 4 by omega, pow_add,
      ← Nat.div_div_eq_div_mul]
    omega
  next hodd =>
    rw [toNat_lowNibble, ← hbyte, show 124 - 4 * k.val = 120 - 8 * (k.val / 2) by omega]
    omega

theorem leadingZeros_iff (q : Quad) (K : Nat) :
    leadingZeros q K = true ↔ digestNumber q / 2 ^ (128 - 4 * K) = 0 := beq_iff_eq

theorem leadingZeros_zero (q : Quad) : leadingZeros q 0 = true := by
  have ha := (bswap32 q.a).isLt
  have hb := (bswap32 q.b).isLt
  have hc := (bswap32 q.c).isLt
  have hd := (bswap32 q.d).isLt
  rw [leadingZeros_iff, digestNumber]
  omega

/-- One digit more is zero when the digits before are and it is. -/
theorem leadingZeros_succ (q : Quad) {K : Nat} (h : K < 32) :
    leadingZeros q (K + 1) = true ↔ leadingZeros q K = true ∧ hexByte q ⟨K, h⟩ = 0x30 := by
  have hdigit := digestNumber_hexDigit q ⟨K, h⟩
  rw [leadingZeros_iff, leadingZeros_iff, hexByte_eq_hexChar_hexDigit, hexChar_eq_zero_iff, ← hdigit,
    show 128 - 4 * K = (124 - 4 * K) + 4 by omega, show 128 - 4 * (K + 1) = 124 - 4 * K by omega, pow_add,
    ← Nat.div_div_eq_div_mul]
  simp only
  omega

/-- R164: the predicate on the number and on the hex string. -/
theorem leadingZeros_iff_hexByte (q : Quad) {K : Nat} (hK : K ≤ 32) :
    leadingZeros q K = true ↔ ∀ k : Fin 32, k.val < K → hexByte q k = 0x30 := by
  induction K with
  | zero => simp [leadingZeros_zero]
  | succ K ih =>
    rw [leadingZeros_succ q hK, ih (Nat.le_of_lt hK)]
    constructor
    · rintro ⟨hbefore, hlast⟩ k hk
      obtain hlt | rfl := Nat.lt_succ_iff_lt_or_eq.1 hk
      · exact hbefore k hlt
      · exact hlast
    · exact fun hall => ⟨fun k hk => hall k (Nat.lt_succ_of_lt hk), hall _ (Nat.lt_succ_self K)⟩

/-- R164: up to eight digits the predicate looks at `PA` only. -/
theorem leadingZeros_iff_first_word (q : Quad) {K : Nat} (hK : K ≤ 8) :
    leadingZeros q K = true ↔ (bswap32 q.a).toNat / 2 ^ (32 - 4 * K) = 0 := by
  have hfirst : digestNumber q / 2 ^ 96 = (bswap32 q.a).toNat := by
    have hb := (bswap32 q.b).isLt
    have hc := (bswap32 q.c).isLt
    have hd := (bswap32 q.d).isLt
    rw [digestNumber]
    omega
  rw [leadingZeros_iff, show 128 - 4 * K = 96 + (32 - 4 * K) by omega, pow_add, ← Nat.div_div_eq_div_mul, hfirst]

theorem leadingZeros_greatest (q : Quad) (bound : Nat) : leadingZeros q (greatestLeadingZeros q bound) = true := by
  induction bound with
  | zero => exact leadingZeros_zero q
  | succ k ih =>
    rw [greatestLeadingZeros]
    split
    next h => exact h
    next => exact ih

theorem greatestLeadingZeros_le (q : Quad) (bound : Nat) : greatestLeadingZeros q bound ≤ bound := by
  induction bound with
  | zero => exact Nat.le_refl 0
  | succ k ih =>
    rw [greatestLeadingZeros]
    split
    next => exact Nat.le_refl _
    next => exact Nat.le_succ_of_le ih

theorem le_greatestLeadingZeros (q : Quad) {bound K : Nat} (hK : K ≤ bound) (h : leadingZeros q K = true) :
    K ≤ greatestLeadingZeros q bound := by
  induction bound with
  | zero => exact hK
  | succ k ih =>
    rw [greatestLeadingZeros]
    split
    next => exact hK
    next hno =>
      obtain hle | rfl := Nat.le_succ_iff.1 hK
      · exact ih hle
      · exact absurd h hno

/-- Settles O37: digit by digit the number is the hex string (`leadingZeros_succ`), its first 32 bits are `PA`, and
the greatest K is searched from the top (R164). -/
theorem zeroNibblePredicate : Obligations.ZeroNibblePredicate := fun q =>
  ⟨fun _ => leadingZeros_iff_hexByte q, fun _ => leadingZeros_iff_first_word q, leadingZeros_greatest q 32,
    greatestLeadingZeros_le q 32, fun _ => le_greatestLeadingZeros q⟩

end Sys2Proof.Machine
end

section
/-! PROOFS. Scripts (R88, R89): a run of lines performs their instructions in order, and what the pseudo-instructions
leave: `setmsg`, `hash`, `stretch`, and eight messages hashed. -/

namespace Sys2Proof.Machine

/-! ### Lines -/

/-- What an instruction does to the engine; `exec_perform` ties it to `exec`. -/
def Engine.perform (e : Engine) : Instr → Engine
  | .buildBlocks => e.buildAll
  | .compress => e.compressAll
  | .expandHex => e.expandAll
  | .rdBlkw _ _ => e
  | .wrBlkw j n v => e.setBlkw j n v
  | .rdLen _ => e
  | .wrLen j v => e.setLen j v
  | .rdV _ _ => e
  | .wrV j w v => e.setWord j w v
  | .rdP _ _ => e
  | .wrCmd v => Engine.command v e
  | .rdStatus => e
  | .wrStatus v => e.writeStatus v

theorem exec_perform (i : Instr) (s : State) :
    ∃ t, exec i s = .next t ∧ t.eng = s.eng.perform i ∧ t.pending = s.pending := by
  cases i <;> exact ⟨_, rfl, rfl, rfl⟩

/-- An instruction that is no read does nothing but act on the engine. -/
theorem exec_of_not_isRead {i : Instr} (h : ¬IsRead i) (s : State) :
    exec i s = .next { s with eng := s.eng.perform i } := by
  cases i with
  | rdBlkw | rdLen | rdV | rdP | rdStatus => simp [IsRead] at h
  | _ => rfl

/-- A step at a line performs the instruction that the line stands for (R88). -/
theorem step_of_line {s : State} {i : Instr} {rest : Script} (hp : s.pending = line i :: rest) :
    step s = exec i { s with pending := rest } := by
  obtain ⟨haccess, hcommand⟩ := stepRunsDecodedAccess
  cases he : encode i with
  | command v => exact hcommand s v rest i (by rw [hp, line, he]) (decode_of_encode he)
  | access a => exact haccess s a rest i (by rw [hp, line, he, portAccess]) (decode_of_encode he)

/-- A run of lines that read nothing performs their instructions in order. -/
theorem run_lines {is : List Instr} (hwrites : ∀ i ∈ is, ¬IsRead i) {s : State} {rest : Script}
    (hp : s.pending = is.map line ++ rest) : Host.Core.run Sys2Proof.core is.length s =
      .next { s with eng := is.foldl Engine.perform s.eng, pending := rest } := by
  induction is generalizing s with
  | nil =>
    obtain rfl : rest = s.pending := hp.symm
    rfl
  | cons i is ih =>
    have hstep := (step_of_line hp).trans (exec_of_not_isRead (hwrites i (by simp)) _)
    rw [List.length_cons, Nat.add_comm, run_add _ (run_one hstep)]
    exact ih (fun i hi => hwrites i (by simp [hi])) rfl

/-! ### `setmsg` -/

/-- Word `i` of a message, missing bytes 0x00 (R89). -/
def messageWord (msg : List Byte) (i : Fin 16) : Word :=
  le32 (msg.getD (4 * i.val) 0) (msg.getD (4 * i.val + 1) 0) (msg.getD (4 * i.val + 2) 0) (msg.getD (4 * i.val + 3) 0)

/-- The words of a block that hold bytes of a message of `L` bytes. -/
def messageWords (L : Nat) : List (Fin 16) := (List.finRange 16).filter fun i => decide (4 * i.val < L)

theorem mem_messageWords {L : Nat} {i : Fin 16} : i ∈ messageWords L ↔ 4 * i.val < L := by
  simp [messageWords]

/-- The instructions of `setmsg`. -/
def messageWrites (j : Lane) (msg : List Byte) : List Instr :=
  (messageWords msg.length).map (fun i => .wrBlkw j i (messageWord msg i)) ++ [.wrLen j (BitVec.ofNat 32 msg.length)]

theorem setmsg_eq_map_line (j : Lane) (msg : List Byte) : setmsg j msg = (messageWrites j msg).map line := by
  rw [messageWrites, List.map_append, List.map_map]
  rfl

/-- Several words of one block written in order. -/
def Engine.setBlkws (e : Engine) (j : Lane) (v : Fin 16 → Word) (is : List (Fin 16)) : Engine :=
  is.foldl (fun e i => e.setBlkw j i (v i)) e

section
variable (e : Engine) (j : Lane) (v : Fin 16 → Word) (is : List (Fin 16))

/-- Such writes leave all but the lane's block. -/
theorem Engine.setBlkws_frame : (e.setBlkws j v is).len = e.len ∧ (e.setBlkws j v is).err = e.err ∧
    (∀ l, (e.setBlkws j v is).quad l = e.quad l) ∧ ∀ l, l ≠ j → (e.setBlkws j v is).block l = e.block l := by
  induction is generalizing e with
  | nil => exact ⟨rfl, rfl, fun _ => rfl, fun _ _ => rfl⟩
  | cons i is ih =>
    obtain ⟨hlen, herr, hquad, hblock⟩ := ih (e.setBlkw j i (v i))
    refine ⟨hlen, herr, hquad, fun l hl => (hblock l hl).trans ?_⟩
    rw [Engine.block_setBlkw, if_neg hl]

/-- Each word written last holds what was written, the others what they held. -/
theorem Engine.blkw_setBlkws (n : Fin 16) :
    (e.setBlkws j v is).blkw j n = if n ∈ is then v n else e.blkw j n := by
  induction is generalizing e with
  | nil => rfl
  | cons i is ih =>
    have hcons : e.setBlkws j v (i :: is) = (e.setBlkw j i (v i)).setBlkws j v is := rfl
    have hfirst : (e.setBlkw j i (v i)).blkw j n = if n = i then v i else e.blkw j n := by
      simp [Engine.blkw]
    rw [hcons, ih, hfirst]
    by_cases hmem : n ∈ is
    · simp [hmem]
    · by_cases hn : n = i <;> simp [hmem, hn]

end

/-- The engine after `setmsg`. -/
theorem foldl_perform_messageWrites (e : Engine) (j : Lane) (msg : List Byte) :
    (messageWrites j msg).foldl Engine.perform e =
      (e.setBlkws j (messageWord msg) (messageWords msg.length)).setLen j (BitVec.ofNat 32 msg.length) := by
  rw [messageWrites, List.foldl_append, List.foldl_map]
  rfl

theorem byteOf_le32_fin (f : Fin 4 → Byte) (k : Fin 4) : byteOf (le32 (f 0) (f 1) (f 2) (f 3)) k.val = f k := by
  obtain ⟨h0, h1, h2, h3⟩ := byteOf_le32 (f 0) (f 1) (f 2) (f 3)
  match k with
  | 0 => exact h0
  | 1 => exact h1
  | 2 => exact h2
  | 3 => exact h3

theorem byteOf_blockWord (b : Block) (i : Fin 16) (k : Fin 4) :
    byteOf (blockWord b i) k.val = b[4 * i.val + k.val] :=
  byteOf_le32_fin (fun k => b[4 * i.val + k.val]) k

theorem byteOf_messageWord (msg : List Byte) (i : Fin 16) (k : Fin 4) :
    byteOf (messageWord msg i) k.val = msg.getD (4 * i.val + k.val) 0 :=
  byteOf_le32_fin (fun k => msg.getD (4 * i.val + k.val) 0) k

/-- A block whose words are the message's holds the message. -/
theorem blockMessage_of_words {b : Block} {msg : List Byte} (hlen : msg.length < 56)
    (hwords : ∀ i ∈ messageWords msg.length, blockWord b i = messageWord msg i) : blockMessage b msg.length = msg := by
  refine List.ext_getElem (length_blockMessage b hlen) fun k hk hk' => ?_
  have hword := hwords ⟨k / 4, by omega⟩ (mem_messageWords.2 (by simp only; omega))
  have hbyte : b[4 * (k / 4) + k % 4] = msg.getD (4 * (k / 4) + k % 4) 0 := by
    have hmessage := byteOf_messageWord msg ⟨k / 4, by omega⟩ ⟨k % 4, by omega⟩
    rwa [← hword, byteOf_blockWord] at hmessage
  simp only [Nat.div_add_mod, List.getD_eq_getElem _ _ hk'] at hbyte
  simp [blockMessage, hbyte]

/-- Settles O51: the run is that of the writes (`run_lines`); they put the message's words, and so its bytes, in the
lane's block, then its length, and leave the rest (R89). -/
theorem setmsgPlacesTheMessage : Obligations.SetmsgPlacesTheMessage := by
  intro s j msg rest hlen hp
  rw [setmsg_eq_map_line] at hp ⊢
  have hwrites : ∀ i ∈ messageWrites j msg, ¬IsRead i := by
    simp only [messageWrites, List.mem_append, List.mem_map, List.mem_singleton]
    rintro i (⟨n, -, rfl⟩ | rfl) <;> simp [IsRead]
  rw [List.length_map, run_lines hwrites hp, foldl_perform_messageWrites]
  have hword := s.eng.blkw_setBlkws j (messageWord msg) (messageWords msg.length)
  obtain ⟨hlens, herr, hquad, hblock⟩ := s.eng.setBlkws_frame j (messageWord msg) (messageWords msg.length)
  generalize s.eng.setBlkws j (messageWord msg) (messageWords msg.length) = e at *
  refine ⟨_, rfl, rfl, ?_, ?_, fun l hl => ⟨hblock l hl, ?_⟩, hquad, herr, rfl⟩
  · rw [Engine.getElem_setLen, if_pos rfl, BitVec.toNat_ofNat]
    omega
  · exact blockMessage_of_words hlen fun i hi => (hword i).trans (if_pos hi)
  · rw [Engine.getElem_setLen, if_neg hl, hlens]

/-! ### `hash` and `stretch` -/

/-- Settles O52: `build_blocks` leaves in each block the built block of the message (`buildBlock_blockMessage`), and
`compress` compresses it (R111). -/
theorem hashDigestsEveryLane : Obligations.HashDigestsEveryLane := by
  intro s rest hshort hp
  have hrun := run_lines (is := [.buildBlocks, .compress]) (by simp [IsRead]) hp
  refine ⟨_, hrun, rfl, ?_, fun j => ⟨_, buildBlock_blockMessage s.eng.blk[j] (hshort j), ?_⟩⟩
  · change s.eng.buildAll.compressAll.err = _
    rw [Engine.compressAll_err, Engine.buildAll_of_short hshort, Engine.setBlocks_err]
  · change s.eng.buildAll.compressAll.quad j = _
    rw [Engine.quad_compressAll, Engine.buildAll_of_short hshort, Engine.block_setBlocks]
    rfl

/-- The digest of the hex string of a digest (R171). -/
def rehashDigest (q : Quad) : Quad := compress1 (hexExpand q)

/-- `rehash` replaces each lane's digest (R89). -/
theorem run_rehash {s : State} {rest : Script} (hp : s.pending = rehash ++ rest) :
    ∃ t, Host.Core.run Sys2Proof.core 2 s = .next t ∧ t.pending = rest ∧ t.eng.len = s.eng.len ∧
      t.eng.err = s.eng.err ∧ ∀ j : Lane, t.eng.quad j = rehashDigest (s.eng.quad j) := by
  refine ⟨_, run_lines (is := [.expandHex, .compress]) (by simp [IsRead]) hp, rfl, rfl, rfl, fun j => ?_⟩
  change s.eng.expandAll.compressAll.quad j = _
  rw [Engine.quad_compressAll, Engine.block_expandAll, rehashDigest]

theorem run_stretch (n : Nat) {s : State} {rest : Script} (hp : s.pending = stretch n ++ rest) :
    ∃ t, Host.Core.run Sys2Proof.core (2 * n) s = .next t ∧ t.pending = rest ∧ t.eng.len = s.eng.len ∧
      t.eng.err = s.eng.err ∧ ∀ j : Lane, t.eng.quad j = rehashDigest^[n] (s.eng.quad j) := by
  induction n generalizing s with
  | zero => exact ⟨s, rfl, hp, rfl, rfl, fun _ => rfl⟩
  | succ n ih =>
    rw [stretch, List.append_assoc] at hp
    obtain ⟨u, hu, hpu, hlenu, herru, hquadu⟩ := run_rehash hp
    obtain ⟨t, ht, hpt, hlent, herrt, hquadt⟩ := ih hpu
    refine ⟨t, ?_, hpt, hlent.trans hlenu, herrt.trans herru, fun j => ?_⟩
    · rw [Nat.mul_succ, Nat.add_comm, run_add _ hu, ht]
    · rw [hquadt, hquadu, Function.iterate_succ_apply]

/-- Settles O53: the sequence is the iteration of `rehashDigest`, and the block it compresses is the built block of
the hex string (`buildBlock_hexString`, R171). -/
theorem stretchIteratesTheDigest : Obligations.StretchIteratesTheDigest := by
  intro n s rest hp
  obtain ⟨t, ht, hpt, hlen, herr, hquad⟩ := run_stretch n hp
  refine ⟨t, ht, hpt, hlen, herr, fun j => ⟨fun k => rehashDigest^[k] (s.eng.quad j), rfl, hquad j, fun k _ => ?_⟩⟩
  exact ⟨_, buildBlock_hexString _, Function.iterate_succ_apply' rehashDigest k _⟩

/-! ### Eight messages -/

/-- Lane `j` holds the message: its length and its bytes. -/
def Engine.Holds (e : Engine) (j : Lane) (msg : List Byte) : Prop :=
  e.len[j].toNat = msg.length ∧ e.blk[j].toList.take msg.length = msg

/-- `setmsg` of each lane of a list places each message; a lane placed before and not again keeps its own. -/
theorem run_setmsgs (lanes : List Lane) {s : State} {msg : Lane → List Byte} {rest : Script}
    (hlen : ∀ j, (msg j).length < 56) (hp : s.pending = (lanes.flatMap fun j => setmsg j (msg j)) ++ rest) :
    ∃ (n : Nat) (t : State), Host.Core.run Sys2Proof.core n s = .next t ∧ t.pending = rest ∧ t.eng.err = s.eng.err ∧
      ∀ j, j ∈ lanes ∨ s.eng.Holds j (msg j) → t.eng.Holds j (msg j) := by
  induction lanes generalizing s with
  | nil => exact ⟨0, s, rfl, hp, rfl, fun j hj => hj.resolve_left List.not_mem_nil⟩
  | cons l lanes ih =>
    rw [List.flatMap_cons, List.append_assoc] at hp
    obtain ⟨u, hu, hpu, hlenl, hmsgl, hothers, -, herru, -⟩ := setmsgPlacesTheMessage s l (msg l) _ (hlen l) hp
    obtain ⟨n, t, ht, hpt, herrt, hholds⟩ := ih hpu
    refine ⟨(setmsg l (msg l)).length + n, t, (run_add n hu).trans ht, hpt, herrt.trans herru, fun j hj => hholds j ?_⟩
    by_cases hjl : j = l
    · exact .inr (hjl ▸ ⟨hlenl, hmsgl⟩)
    · refine hj.imp (fun hmem => (List.mem_cons.1 hmem).resolve_left hjl) fun hs => ?_
      obtain ⟨hblk, hlenj⟩ := hothers j hjl
      rwa [Engine.Holds, hblk, hlenj]

/-- Settles O54: after the eight `setmsg` every lane holds its message, which `hash` digests (R111, R140, R222). -/
theorem eightMessagesAreHashed : Obligations.EightMessagesAreHashed := by
  intro s msg rest hlen hp
  rw [List.append_assoc] at hp
  obtain ⟨n, u, hu, hpu, herru, hall⟩ := run_setmsgs (List.finRange 8) hlen hp
  have hholds (j : Lane) : u.eng.Holds j (msg j) := hall j (.inl (List.mem_finRange j))
  have hshort (j : Lane) : u.eng.len[j].toNat < 56 := (hholds j).1.trans_lt (hlen j)
  obtain ⟨t, ht, hpt, herrt, hdigest⟩ := hashDigestsEveryLane u rest hshort hpu
  refine ⟨n + 2, t, (run_add 2 hu).trans ht, hpt, herrt.trans herru, fun j => ?_⟩
  obtain ⟨hlenj, hmsgj⟩ := hholds j
  obtain ⟨b, hb, hq⟩ := hdigest j
  rw [hlenj, hmsgj] at hb
  exact ⟨b, hb, hq⟩

end Sys2Proof.Machine
end

section
/-! PROOFS. The footprints (R35, R81): what an instruction leaves, what it does alike to two engines that agree on
what it reads, and from both what a defined run depends on (R235). -/

namespace Sys2Proof.Machine

open Sys2Proof.Safety

/-! ### What is left -/

theorem Engine.sameAt_raiseInputTooLong (e : Engine) (x : Element) : e.raiseInputTooLong.sameAt e x := by
  cases x <;> rfl

/-- `build_blocks` leaves the bytes below the length, and every byte when it fails (R103, R106, R107). -/
theorem Engine.sameAt_buildAll {e : Engine} {x : Element} (h : e.commandWrites .buildBlocks x = false) :
    e.buildAll.sameAt e x := by
  obtain ⟨-, hraise⟩ | ⟨hshort, hbuild⟩ := e.buildAll_cases
  · rw [hraise]
    exact e.sameAt_raiseInputTooLong x
  · rw [hbuild]
    cases x with
    | len j => rfl
    | word j w => rfl
    | byte j k =>
      have hk : k.val < e.length j := by
        simpa [Engine.commandWrites, e.someTooLong_eq_false_iff.2 hshort] using h
      simp only [Engine.sameAt, Engine.block_setBlocks]
      exact padInPlace_get_of_lt _ hk

theorem Engine.sameAt_compressAll {e : Engine} {x : Element} (h : e.commandWrites .compress x = false) :
    e.compressAll.sameAt e x := by
  cases x with
  | byte j k => rfl
  | len j => rfl
  | word j w => cases h

theorem Engine.sameAt_expandAll {e : Engine} {x : Element} (h : e.commandWrites .expandHex x = false) :
    e.expandAll.sameAt e x := by
  cases x with
  | byte j k => cases h
  | len j => rfl
  | word j w => rfl

/-- A block word's write leaves the bytes that are not its own (R22, R56). -/
theorem Engine.sameAt_setBlkw {e : Engine} {j : Lane} {n : Fin 16} {v : Word} {x : Element} (h : x.inBlkw j n = false) :
    (e.setBlkw j n v).sameAt e x := by
  cases x with
  | len l => rfl
  | word l w => rfl
  | byte l k =>
    simp only [Engine.sameAt, Engine.block_setBlkw]
    split
    next hl =>
      subst hl
      have hk : ¬k.val / 4 = n.val := by simpa [Element.inBlkw] using h
      rw [setBlockWord_get, if_neg hk]
    next => rfl

theorem Engine.sameAt_setLen {e : Engine} {j : Lane} {v : Word} {x : Element} (h : x ≠ .len j) :
    (e.setLen j v).sameAt e x := by
  cases x with
  | byte l k => rfl
  | word l w => rfl
  | len l =>
    have hl : ¬l = j := fun hl => h (by rw [hl])
    exact (e.getElem_setLen j l v).trans (if_neg hl)

theorem Engine.sameAt_setWord {e : Engine} {j : Lane} {w : WordSel} {v : Word} {x : Element} (h : x ≠ .word j w) :
    (e.setWord j w v).sameAt e x := by
  cases x with
  | byte l k => simp [Engine.sameAt]
  | len l => simp [Engine.sameAt]
  | word l u =>
    have hlu : ¬(l = j ∧ u = w) := fun ⟨hl, hu⟩ => h (by rw [hl, hu])
    exact (e.quadWord_setWord j l w u v).trans (if_neg hlu)

theorem Engine.sameAt_writeStatus (e : Engine) (v : Word) (x : Element) : (e.writeStatus v).sameAt e x := by
  unfold Engine.writeStatus
  split
  · cases x <;> rfl
  · exact e.sameAt_refl x

/-- Outside its footprint an instruction leaves every element (R35). -/
theorem Engine.sameAt_perform {e : Engine} {i : Instr} {x : Element} (h : e.instrWrites i x = false) :
    (e.perform i).sameAt e x := by
  cases i with
  | buildBlocks => exact Engine.sameAt_buildAll h
  | compress => exact Engine.sameAt_compressAll h
  | expandHex => exact Engine.sameAt_expandAll h
  | rdBlkw | rdLen | rdV | rdP | rdStatus => exact e.sameAt_refl x
  | wrBlkw j n v => exact Engine.sameAt_setBlkw h
  | wrLen j v => exact Engine.sameAt_setLen (beq_eq_false_iff_ne.1 h)
  | wrV j w v => exact Engine.sameAt_setWord (beq_eq_false_iff_ne.1 h)
  | wrStatus v => exact e.sameAt_writeStatus v x
  | wrCmd v =>
    obtain ⟨rfl, -⟩ | ⟨rfl, -⟩ | ⟨rfl, -⟩ | ⟨-, -, -, hnone⟩ := e.command_cases v
    · exact Engine.sameAt_buildAll h
    · exact Engine.sameAt_compressAll h
    · exact Engine.sameAt_expandAll h
    · rw [Engine.perform, hnone]
      exact e.sameAt_refl x

/-- Settles O55 (R35). -/
theorem instructionsWriteOnlyTheirFootprint : Obligations.InstructionsWriteOnlyTheirFootprint := by
  intro i s
  obtain ⟨t, ht, heng, -⟩ := exec_perform i s
  refine ⟨t, ht, fun x hx => ?_⟩
  rw [heng]
  exact Engine.sameAt_perform hx

/-! ### What is written -/

/-- The instruction does the same to both engines, as far as it concerns `lanes`: it writes the same elements, the
same into them, and treats `ERR` the same. -/
structure Engine.ActsAlike (lanes : Lane → Bool) (i : Instr) (e e' : Engine) : Prop where
  writes : ∀ x, concerns lanes x = true → e'.instrWrites i x = e.instrWrites i x
  same   : ∀ x, concerns lanes x = true → e.instrWrites i x = true → (e.perform i).sameAt (e'.perform i) x
  err    : e.err = e'.err → (e.perform i).err = (e'.perform i).err

section
variable {lanes : Lane → Bool} {e e' : Engine}

/-- `build_blocks` reads all lengths, and what it writes is padding, fixed by the lane's length (R101, R103). -/
theorem Engine.buildBlocks_actsAlike (h : ∀ j : Lane, e.len[j] = e'.len[j]) : e.ActsAlike lanes .buildBlocks e' := by
  have hlen (j : Lane) : e.length j = e'.length j := by rw [Engine.length, Engine.length, h]
  have hlong : e.someTooLong = e'.someTooLong := by simp only [Engine.someTooLong, hlen]
  refine ⟨fun x _ => ?_, fun x _ hx => ?_, fun herr => ?_⟩
  · cases x <;> simp [Engine.instrWrites, Engine.commandWrites, hlen, hlong]
  · cases x with
    | len j => cases hx
    | word j w => cases hx
    | byte j k =>
      obtain ⟨hfits, hk⟩ : e.someTooLong = false ∧ e.length j ≤ k.val := by
        simpa [Engine.instrWrites, Engine.commandWrites] using hx
      have hshort := e.someTooLong_eq_false_iff.1 hfits
      have hshort' := e'.someTooLong_eq_false_iff.1 (hlong ▸ hfits)
      simp only [Engine.sameAt, Engine.perform, Engine.buildAll_of_short hshort, Engine.buildAll_of_short hshort',
        Engine.block_setBlocks]
      rw [padInPlace_get_of_le _ hk, padInPlace_get_of_le _ (hlen j ▸ hk), hlen]
  · rw [Bool.eq_iff_iff, Engine.perform, Engine.perform, Engine.buildAll_err_iff, Engine.buildAll_err_iff, herr]
    simp only [hlen]

/-- `compress` reads a lane's block and writes the lane's words (R121, R134). -/
theorem Engine.compress_actsAlike (h : ∀ j : Lane, lanes j = true → e.block j = e'.block j) :
    e.ActsAlike lanes .compress e' := by
  refine ⟨fun x _ => by cases x <;> rfl, fun x hc hx => ?_, id⟩
  cases x with
  | byte j k => cases hx
  | len j => cases hx
  | word j w =>
    simp only [Engine.sameAt, Engine.perform, Engine.word, Engine.quad_compressAll, h j hc]

/-- `expand_hex` reads a lane's words and writes the lane's block (R168). -/
theorem Engine.expandHex_actsAlike (h : ∀ j : Lane, lanes j = true → e.quad j = e'.quad j) :
    e.ActsAlike lanes .expandHex e' := by
  refine ⟨fun x _ => by cases x <;> rfl, fun x hc hx => ?_, id⟩
  cases x with
  | len j => cases hx
  | word j w => cases hx
  | byte j k =>
    simp only [Engine.sameAt, Engine.perform, Engine.block_expandAll, h j hc]

/-- A block that agrees byte by byte, and four words that agree word by word. -/
theorem Engine.block_eq_of_sameAt {j : Lane} (h : ∀ k, e.sameAt e' (.byte j k)) : e.block j = e'.block j := by
  ext k hk : 1
  exact h ⟨k, hk⟩

theorem Engine.quad_eq_of_sameAt {j : Lane} (h : ∀ w, e.sameAt e' (.word j w)) : e.quad j = e'.quad j :=
  Quad.mk.injEq .. ▸ ⟨h .a, h .b, h .c, h .d⟩

theorem Engine.command_actsAlike (c : Command)
    (h : ∀ y, e.instrReads (commandInstr c) y = true → concerns lanes y = true → e.sameAt e' y) :
    e.ActsAlike lanes (commandInstr c) e' := by
  cases c with
  | buildBlocks => exact Engine.buildBlocks_actsAlike fun j => h (.len j) rfl rfl
  | compress => exact Engine.compress_actsAlike fun j hj => Engine.block_eq_of_sameAt fun k => h (.byte j k) rfl hj
  | expandHex => exact Engine.expandHex_actsAlike fun j hj => Engine.quad_eq_of_sameAt fun w => h (.word j w) rfl hj

/-- R60: the write of a command word acts as the command. -/
theorem Engine.perform_wrCmd {v : Word} {c : Command} (hd : decodeCommand v = .ok c) (e : Engine) :
    e.perform (.wrCmd v) = e.perform (commandInstr c) := by
  cases c <;> simp [Engine.perform, Engine.command, commandInstr, hd]

/-- R60, R86: the write of a command word acts alike where its command does; that of a reserved word does nothing. -/
theorem Engine.wrCmd_actsAlike {v : Word}
    (h : ∀ y, e.instrReads (.wrCmd v) y = true → concerns lanes y = true → e.sameAt e' y) :
    e.ActsAlike lanes (.wrCmd v) e' := by
  cases hd : decodeCommand v with
  | error why =>
    have hw (e : Engine) (x : Element) : e.instrWrites (.wrCmd v) x = false := by simp [Engine.instrWrites_wrCmd, hd]
    exact ⟨fun x _ => by rw [hw, hw], fun x _ hx => (Bool.false_ne_true ((hw e x).symm.trans hx)).elim,
      fun herr => by simpa [Engine.perform, Engine.command, hd] using herr⟩
  | ok c =>
    have hw (e : Engine) (x : Element) : e.instrWrites (.wrCmd v) x = e.instrWrites (commandInstr c) x := by
      simp [Engine.instrWrites_wrCmd, hd]
    obtain ⟨hwrites, hsame, herr⟩ := Engine.command_actsAlike c fun y hy => h y (by simpa [Engine.instrReads_wrCmd, hd])
    refine ⟨fun x hx => ?_, fun x hx hxw => ?_, ?_⟩
    · rw [hw, hw, hwrites x hx]
    · rw [Engine.perform_wrCmd hd, Engine.perform_wrCmd hd]
      exact hsame x hx (hw e x ▸ hxw)
    · rwa [Engine.perform_wrCmd hd, Engine.perform_wrCmd hd]

/-- What an instruction does that concerns `lanes` depends only on what it reads that concerns them (R81, R134). -/
theorem Engine.actsAlike_of_sameAt_reads {i : Instr}
    (h : ∀ y, e.instrReads i y = true → concerns lanes y = true → e.sameAt e' y) : e.ActsAlike lanes i e' := by
  cases i with
  | buildBlocks => exact Engine.command_actsAlike .buildBlocks h
  | compress => exact Engine.command_actsAlike .compress h
  | expandHex => exact Engine.command_actsAlike .expandHex h
  | wrCmd v => exact Engine.wrCmd_actsAlike h
  | rdBlkw | rdLen | rdV | rdP | rdStatus => exact ⟨fun _ _ => rfl, fun _ _ => nofun, id⟩
  | wrBlkw j n v =>
    refine ⟨fun _ _ => rfl, fun x _ hx => ?_, id⟩
    cases x with
    | len l => cases hx
    | word l w => cases hx
    | byte l k =>
      obtain ⟨rfl, hk⟩ : l = j ∧ k.val / 4 = n.val := by simpa [Engine.instrWrites, Element.inBlkw] using hx
      simp only [Engine.sameAt, Engine.perform, Engine.block_setBlkw, if_true]
      rw [setBlockWord_get, setBlockWord_get, if_pos hk, if_pos hk]
  | wrLen j v =>
    refine ⟨fun _ _ => rfl, fun x _ hx => ?_, id⟩
    obtain rfl : x = .len j := beq_iff_eq.1 hx
    simp [Engine.sameAt, Engine.perform]
  | wrV j w v =>
    refine ⟨fun _ _ => rfl, fun x _ hx => ?_, fun herr => by simpa [Engine.perform] using herr⟩
    obtain rfl : x = .word j w := beq_iff_eq.1 hx
    simp [Engine.sameAt, Engine.perform, Engine.word, Engine.quadWord_setWord]
  | wrStatus v =>
    exact ⟨fun _ _ => rfl, fun _ _ => nofun, fun herr => by simp [Engine.perform, Engine.writeStatus_err, herr]⟩

end

/-- Settles O56 (R81, R134). -/
theorem writtenElementsDependOnReadOnes : Obligations.WrittenElementsDependOnReadOnes := by
  intro i lanes s s' h
  obtain ⟨t, ht, heng, -⟩ := exec_perform i s
  obtain ⟨t', ht', heng', -⟩ := exec_perform i s'
  obtain ⟨hwrites, hsame, -⟩ := Engine.actsAlike_of_sameAt_reads h
  refine ⟨t, t', ht, ht', fun x hx => ⟨hwrites x hx, fun hw => ?_⟩⟩
  rw [heng, heng']
  exact hsame x hx hw

/-! ### Defined runs -/

/-- An instruction keeps agreement, and extends it to what it writes, when all it reads that concerns `lanes` counts
as written. -/
theorem agreeOn_perform {lanes : Lane → Bool} {given : Written} {e e' : Engine} {i : Instr}
    (h : AgreeOn lanes given e e') (hreads : ∀ x, e.instrReads i x = true → concerns lanes x = true → given x = true) :
    AgreeOn lanes (fun x => given x || e.instrWrites i x) (e.perform i) (e'.perform i) := by
  obtain ⟨hwrites, hsame, herr⟩ := Engine.actsAlike_of_sameAt_reads fun y hy hc => h.same y (hreads y hy hc) hc
  refine ⟨herr h.err, fun x hx hc => ?_⟩
  cases hw : e.instrWrites i x with
  | true => exact hsame x hc hw
  | false =>
    have hgiven : given x = true := by simpa [hw] using hx
    have hw' : e'.instrWrites i x = false := (hwrites x hc).trans hw
    exact Engine.sameAt_trans (Engine.sameAt_perform hw)
      (Engine.sameAt_trans (h.same x hgiven hc) (Engine.sameAt_symm (Engine.sameAt_perform hw')))

/-- A read changes neither engine and writes nothing, so that it needs no premise (R64). -/
theorem agreeOn_perform_of_isRead {lanes : Lane → Bool} {given : Written} {e e' : Engine} {i : Instr} (hi : IsRead i)
    (h : AgreeOn lanes given e e') :
    AgreeOn lanes (fun x => given x || e.instrWrites i x) (e.perform i) (e'.perform i) := by
  obtain ⟨j, n, rfl⟩ | ⟨j, rfl⟩ | ⟨j, w, rfl⟩ | ⟨j, w, rfl⟩ | rfl := hi <;>
    simpa only [Engine.perform, Engine.instrWrites, Bool.or_false] using h

/-- One step of both runs, at any action but a reset. -/
theorem agreeOn_step {lanes : Lane → Bool} {given : Written} {s s' : State} {x : HostAction} {rest : Script}
    (hp : s.pending = x :: rest) (hp' : s'.pending = x :: rest) (hx : x ≠ .reset)
    (hwritten : commandReadsAreWritten lanes given s.eng x = true) (h : AgreeOn lanes given s.eng s'.eng) :
    ∃ t t', step s = .next t ∧ step s' = .next t' ∧ AgreeOn lanes (given.after s.eng x) t.eng t'.eng := by
  cases x with
  | reset => exact absurd rfl hx
  | access a =>
    cases hd : decodeAccess a with
    | error why =>
      refine ⟨_, _, step_of_error hp hd, step_of_error hp' hd, ?_⟩
      simpa [Written.after, decode, hd] using h
    | ok i =>
      have hafter : given.after s.eng (.access a) = fun x => given x || s.eng.instrWrites i x := by
        simp [Written.after, decode, hd]
      obtain ⟨t, ht, heng, -⟩ := exec_perform i { s with pending := rest }
      obtain ⟨t', ht', heng', -⟩ := exec_perform i { s' with pending := rest }
      refine ⟨t, t', (step_of_ok hp hd).trans ht, (step_of_ok hp' hd).trans ht', ?_⟩
      rw [hafter, heng, heng']
      obtain ⟨-, r, -, ⟨-, hr⟩ | ⟨hwrite, -⟩⟩ := decodeAccess_ok hd
      · exact agreeOn_perform_of_isRead (isRead_of_decodeRead hr) h
      · rw [commandReadsAreWritten, hwrite] at hwritten
        exact agreeOn_perform h ((readsAreWritten_iff hd).1 hwritten)

/-- Any number of steps of both runs, as long as no reset is pending and each command reads what is written. -/
theorem agreeOn_run {lanes : Lane → Bool} (n : Nat) {given : Written} {s s' : State} (hnoReset : .reset ∉ s.pending)
    (hwritten : Written.throughout (commandReadsAreWritten lanes) s.pending.length given s = true)
    (hp : s'.pending = s.pending) (h : AgreeOn lanes given s.eng s'.eng) :
    ∃ t t' : State, Host.Core.run Sys2Proof.core n s = .next t ∧ Host.Core.run Sys2Proof.core n s' = .next t' ∧
      AgreeOn lanes (Written.afterSteps n given s) t.eng t'.eng := by
  induction n generalizing given s s' with
  | zero => exact ⟨s, s', rfl, rfl, h⟩
  | succ n ih =>
    rw [Nat.add_comm]
    cases hs : s.pending with
    | nil =>
      have hidle := run_one (step_of_idle hs)
      have hidle' := run_one (step_of_idle (hp.trans hs))
      rw [run_add n hidle, run_add n hidle', Written.afterSteps_of_idle hs, ← Written.afterSteps_of_idle hs n given]
      exact ih hnoReset hwritten hp h
    | cons x rest =>
      have hx : x ≠ .reset := fun hx => hnoReset (by simp [hs, hx])
      obtain ⟨u, hu, hpu⟩ := step_progress s
      obtain ⟨u', hu', hpu'⟩ := step_progress s'
      rw [hs, List.length_cons, Written.throughout_of_step hs hu] at hwritten
      obtain ⟨hfirst, hlater⟩ := hwritten
      obtain ⟨t, t', ht, ht', hagree⟩ := agreeOn_step hs (hp.trans hs) hx hfirst h
      cases hu.symm.trans ht
      cases hu'.symm.trans ht'
      rw [hp] at hpu'
      rw [hs] at hpu hpu' hnoReset
      rw [run_add n (run_one hu), run_add n (run_one hu'), Nat.add_comm, Written.afterSteps_of_step hs hu]
      refine ih ?_ ?_ (hpu'.trans hpu.symm) hagree
      · rw [hpu]
        exact fun hmem => hnoReset (List.mem_of_mem_tail hmem)
      · rw [hpu]
        exact hlater

/-- Settles O57: a defined run meets the premises of `agreeOn_run` (R235, premises 5 and 6). -/
theorem definedRunsDependOnWrittenElementsOnly : Obligations.DefinedRunsDependOnWrittenElementsOnly :=
  fun n _ _ _ _ hdefined hp h => agreeOn_run n hdefined.noReset hdefined.written hp h

end Sys2Proof.Machine
end
